-- ==== Sys2Proof/Config.lean ====
section
/-! DEFINITION. The parameters of the block (00_scope.md rule R5): what an instance fixes.

There is no free value: the spec leaves the result of no instruction open. -/

namespace Sys2Proof

/-- `NREG`: "exactly six" registers (R5, R20). -/
abbrev NREG : Nat := 6

/-- `NOPS`: exactly 16 opcodes (R5, R63). -/
abbrev NOPS : Nat := 16

/-- `XLEN`, the width of every register and of every literal operand. The spec leaves it open, an
integer at least 4 (R5, decision D1); 64 is the width of the spec's own vectors.
DESIGN CHOICE, unsafe (log 1). -/
def XLEN : Nat := 64

/-- `MIN = -2^(XLEN-1)`, the least register value (R5, R22). -/
def MIN : Int := -(2 ^ (XLEN - 1))

/-- `MAX = 2^(XLEN-1) - 1`, the greatest register value (R5, R22). -/
def MAX : Int := 2 ^ (XLEN - 1) - 1

/-- `PLEN_MAX`, the largest program the store holds. The spec leaves it open, `1 <= PLEN_MAX <= MAX`,
default `MAX` (R5, decision D11). DESIGN CHOICE: the default (log 2). -/
def PLEN_MAX : Nat := 2 ^ (XLEN - 1) - 1

/-- `IW = 7 + 2*XLEN`, the width of the binary instruction word (R5, R60). -/
def IW : Nat := 7 + 2 * XLEN

end Sys2Proof
end

