-- ==== Sys2Proof/Word.lean ====
section
/-! DEFINITION. The machine word: the contents of one register. -/

namespace Sys2Proof

/-- One register's contents: an `XLEN`-bit two's-complement pattern, bit 0 the least significant
(00_scope.md R6, 10_state.md R22). Its value, an integer in `MIN .. MAX`, is `BitVec.toInt`. -/
abbrev Word := BitVec XLEN

/-- One instruction in the binary form, `IW` bits, bit 0 the least significant (30_encoding.md R60). -/
abbrev InstrWord := BitVec IW

end Sys2Proof
end

