-- ==== Sys2Proof/Syntax.lean ====
section
/-! DEFINITION. The syntax of instructions: the tuple `(op, A, B, C)` (00_scope.md R9) and the role of
every field (30_encoding.md R64). -/

namespace Sys2Proof

/-- What an opcode takes a field for: a register index, its own value, or nothing (R9, R64). -/
inductive Role where
  | reg
  | lit
  | ignored
deriving DecidableEq, Repr

/-- The instruction tuple, one constructor per opcode (R63). The operands `A`, `B` and the destination
`C` are "plain integers whose interpretation ... is determined entirely by the opcode" (R9); which values
are legal is `WellFormed`'s question. -/
inductive Instr where
  /-- R91: `x[C] <- wrap(x[A] + x[B])`. -/
  | addr (A B C : Int)
  /-- R92: `x[C] <- wrap(x[A] + B)`. -/
  | addi (A B C : Int)
  /-- R93: `x[C] <- wrap(x[A] * x[B])`. -/
  | mulr (A B C : Int)
  /-- R94: `x[C] <- wrap(x[A] * B)`. -/
  | muli (A B C : Int)
  /-- R101: `x[C] <- and(x[A], x[B])`. -/
  | banr (A B C : Int)
  /-- R102: `x[C] <- and(x[A], B)`. -/
  | bani (A B C : Int)
  /-- R103: `x[C] <- or(x[A], x[B])`. -/
  | borr (A B C : Int)
  /-- R104: `x[C] <- or(x[A], B)`. -/
  | bori (A B C : Int)
  /-- R111: `x[C] <- x[A]`. -/
  | setr (A B C : Int)
  /-- R112: `x[C] <- A`. -/
  | seti (A B C : Int)
  /-- R121: `x[C] <- (A > x[B])`. -/
  | gtir (A B C : Int)
  /-- R122: `x[C] <- (x[A] > B)`. -/
  | gtri (A B C : Int)
  /-- R123: `x[C] <- (x[A] > x[B])`. -/
  | gtrr (A B C : Int)
  /-- R124: `x[C] <- (A = x[B])`. -/
  | eqir (A B C : Int)
  /-- R125: `x[C] <- (x[A] = B)`. -/
  | eqri (A B C : Int)
  /-- R126: `x[C] <- (x[A] = x[B])`. -/
  | eqrr (A B C : Int)
deriving DecidableEq, Repr

/-- Field `A` of the tuple. -/
def Instr.A : Instr → Int
  | .addr A _ _ => A
  | .addi A _ _ => A
  | .mulr A _ _ => A
  | .muli A _ _ => A
  | .banr A _ _ => A
  | .bani A _ _ => A
  | .borr A _ _ => A
  | .bori A _ _ => A
  | .setr A _ _ => A
  | .seti A _ _ => A
  | .gtir A _ _ => A
  | .gtri A _ _ => A
  | .gtrr A _ _ => A
  | .eqir A _ _ => A
  | .eqri A _ _ => A
  | .eqrr A _ _ => A

/-- Field `B` of the tuple. -/
def Instr.B : Instr → Int
  | .addr _ B _ => B
  | .addi _ B _ => B
  | .mulr _ B _ => B
  | .muli _ B _ => B
  | .banr _ B _ => B
  | .bani _ B _ => B
  | .borr _ B _ => B
  | .bori _ B _ => B
  | .setr _ B _ => B
  | .seti _ B _ => B
  | .gtir _ B _ => B
  | .gtri _ B _ => B
  | .gtrr _ B _ => B
  | .eqir _ B _ => B
  | .eqri _ B _ => B
  | .eqrr _ B _ => B

/-- Field `C` of the tuple, the destination index. -/
def Instr.C : Instr → Int
  | .addr _ _ C => C
  | .addi _ _ C => C
  | .mulr _ _ C => C
  | .muli _ _ C => C
  | .banr _ _ C => C
  | .bani _ _ C => C
  | .borr _ _ C => C
  | .bori _ _ C => C
  | .setr _ _ C => C
  | .seti _ _ C => C
  | .gtir _ _ C => C
  | .gtri _ _ C => C
  | .gtrr _ _ C => C
  | .eqir _ _ C => C
  | .eqri _ _ C => C
  | .eqrr _ _ C => C

/-- The role of field `A` (the table of R64). -/
def Instr.roleA : Instr → Role
  | .addr _ _ _ => .reg
  | .addi _ _ _ => .reg
  | .mulr _ _ _ => .reg
  | .muli _ _ _ => .reg
  | .banr _ _ _ => .reg
  | .bani _ _ _ => .reg
  | .borr _ _ _ => .reg
  | .bori _ _ _ => .reg
  | .setr _ _ _ => .reg
  | .seti _ _ _ => .lit
  | .gtir _ _ _ => .lit
  | .gtri _ _ _ => .reg
  | .gtrr _ _ _ => .reg
  | .eqir _ _ _ => .lit
  | .eqri _ _ _ => .reg
  | .eqrr _ _ _ => .reg

/-- The role of field `B` (the table of R64). -/
def Instr.roleB : Instr → Role
  | .addr _ _ _ => .reg
  | .addi _ _ _ => .lit
  | .mulr _ _ _ => .reg
  | .muli _ _ _ => .lit
  | .banr _ _ _ => .reg
  | .bani _ _ _ => .lit
  | .borr _ _ _ => .reg
  | .bori _ _ _ => .lit
  | .setr _ _ _ => .ignored
  | .seti _ _ _ => .ignored
  | .gtir _ _ _ => .reg
  | .gtri _ _ _ => .lit
  | .gtrr _ _ _ => .reg
  | .eqir _ _ _ => .reg
  | .eqri _ _ _ => .lit
  | .eqrr _ _ _ => .reg

end Sys2Proof
end

