-- ==== Sys2Proof/WellFormed.lean ====
section
/-! DEFINITION. Well-formed instructions: the named checks on one instruction of 30_encoding.md R69.
`wf_op` always holds, since `Instr` has a constructor for each of the 16 opcodes and no other. -/

namespace Sys2Proof

/-- The index names a register: `0 <= i <= 5`. -/
def indexOk (i : Int) : Bool := decide (0 ≤ i ∧ i ≤ 5)

/-- The value is a legal literal: `MIN <= v <= MAX` (30_encoding.md R67). -/
def literalOk (v : Int) : Bool := decide (MIN ≤ v ∧ v ≤ MAX)

/-- The check on an operand field, by its role (R69): an ignored field is bounded as a literal is. -/
def fieldOk : Role → Int → Bool
  | .reg, v => indexOk v
  | .lit, v => literalOk v
  | .ignored, v => literalOk v

/-- The index test of the cycle on one field (44_processor_cycle.md R140): only a register role is tested. -/
def fieldIndexOk : Role → Int → Bool
  | .reg, v => indexOk v
  | .lit, _ => true
  | .ignored, _ => true

/-- The range a literal field must have (R67). Other roles are not looked at. -/
def fieldLiteralOk : Role → Int → Bool
  | .reg, _ => true
  | .lit, v => literalOk v
  | .ignored, _ => true

namespace Instr

/-- `wf_dest`: `0 <= C <= 5`. -/
def wfDest (i : Instr) : Bool := indexOk i.C

/-- `wf_A`. -/
def wfA (i : Instr) : Bool := fieldOk i.roleA i.A

/-- `wf_B`. -/
def wfB (i : Instr) : Bool := fieldOk i.roleB i.B

/-- The three checks together. -/
def wf (i : Instr) : Bool := i.wfDest && i.wfA && i.wfB

/-- `regs_ok(op, A, B, C)` of 44_processor_cycle.md R140. -/
def regsOk (i : Instr) : Bool := indexOk i.C && fieldIndexOk i.roleA i.A && fieldIndexOk i.roleB i.B

/-- Every field in a literal role lies in `MIN .. MAX`. -/
def literalsOk (i : Instr) : Bool := fieldLiteralOk i.roleA i.A && fieldLiteralOk i.roleB i.B

end Instr

/-- A well-formed instruction (R69). -/
abbrev WellFormed (i : Instr) : Prop := i.wf = true

end Sys2Proof
end

