-- ==== Sys2Proof/Decode.lean ====
section
/-! DEFINITION. The binary instruction word: decode (30_encoding.md R62), encode (R77), and the opcode
numbers (R63). Decode is total on `IW`-bit words; a number that is no `IW`-bit word is rejected by name. -/

namespace Sys2Proof

/-- `opnum`: the opcode numbers of the table of R63. -/
def Instr.opnum : Instr → Fin NOPS
  | .addr _ _ _ => 0
  | .addi _ _ _ => 1
  | .mulr _ _ _ => 2
  | .muli _ _ _ => 3
  | .banr _ _ _ => 4
  | .bani _ _ _ => 5
  | .borr _ _ _ => 6
  | .bori _ _ _ => 7
  | .setr _ _ _ => 8
  | .seti _ _ _ => 9
  | .gtir _ _ _ => 10
  | .gtri _ _ _ => 11
  | .gtrr _ _ _ => 12
  | .eqir _ _ _ => 13
  | .eqri _ _ _ => 14
  | .eqrr _ _ _ => 15

/-- The rows of the table of R63 in the order of their numbers. -/
def opTable : Vector (Int → Int → Int → Instr) NOPS :=
  #v[.addr, .addi, .mulr, .muli, .banr, .bani, .borr, .bori,
    .setr, .seti, .gtir, .gtri, .gtrr, .eqir, .eqri, .eqrr]

/-- The opcode a number names (R63): all 16 values name one. -/
def Instr.ofOpnum (n : Fin NOPS) : Int → Int → Int → Instr := opTable[n.val]

/-- The `op` field, `W[3:0]` (R61, R62). -/
def opField (W : InstrWord) : BitVec 4 := W.extractLsb' 0 4

/-- The `C` field, `W[6:4]` (R61, R62). -/
def cField (W : InstrWord) : BitVec 3 := W.extractLsb' 4 3

/-- The `A` field, `W[XLEN+6:7]` (R61, R62). -/
def aField (W : InstrWord) : Word := W.extractLsb' 7 XLEN

/-- The `B` field, `W[2*XLEN+6:XLEN+7]` (R61, R62). -/
def bField (W : InstrWord) : Word := W.extractLsb' (XLEN + 7) XLEN

/-- The opcode number of a word: 0 to 15 (R62). -/
def opNumber (W : InstrWord) : Fin NOPS := ⟨(opField W).toNat, (opField W).isLt⟩

/-- Decode (R62): `op` and `C` unsigned, `A` and `B` in two's complement. Total. -/
def decode (W : InstrWord) : Instr :=
  Instr.ofOpnum (opNumber W) (aField W).toInt (bField W).toInt (cField W).toNat

/-- `v mod 2^XLEN` as a natural number: the bit pattern of `v` (00_scope.md R6). -/
def patternNat (v : Int) : Nat := (v % 2 ^ XLEN).toNat

/-- Encode (R77): the word of a well-formed tuple. R77 gives an ill-formed tuple no word; the model takes
the same sum there, cut to `IW` bits, a negative `C` as 0 (DESIGN CHOICE, log 22). -/
def encode (i : Instr) : InstrWord :=
  BitVec.ofNat IW
    (i.opnum.val + i.C.toNat * 2 ^ 4 + patternNat i.A * 2 ^ 7 + patternNat i.B * 2 ^ (XLEN + 7))

/-- Why a number is rejected as an instruction word. -/
inductive DecodeError where
  /-- It has a bit at or above bit `IW`: every instruction is one word of `IW` bits (R60, R71). -/
  | tooWide
deriving DecidableEq, Repr

/-- The instruction of the word whose bits are the number `w`, or the name of the rejection. -/
def decodeNat (w : Nat) : Except DecodeError Instr :=
  if w < 2 ^ IW then .ok (decode (BitVec.ofNat IW w)) else .error .tooWide

/-- The host's reading of a table word: `nbits` bits of `w`, every bit above them 0. -/
def decodeTableWord (nbits w : Nat) : Option Instr :=
  match decodeNat (w % 2 ^ nbits) with
  | .ok i => some i
  | .error _ => none

end Sys2Proof
end

