-- ==== Sys2Proof/Machine/State.lean ====
section
/-! DEFINITION. The state of the block, plain data (10_state.md), and the state after reset (R36). -/

namespace Sys2Proof.Machine

/-- `status`, 2 bits (10_state.md R27). -/
inductive Status where
  | idle
  | running
  | halted
  | faulted
deriving DecidableEq, Repr

/-- The code of a status (R27). -/
def Status.code : Status → BitVec 2
  | .idle => 0
  | .running => 1
  | .halted => 2
  | .faulted => 3

/-- `cause`, 2 bits (10_state.md R27, 60_exceptions.md R171). -/
inductive Cause where
  | none
  | fetchRange
  | regIndex
deriving DecidableEq, Repr

/-- The code of a cause (R27); code 3 is never produced. -/
def Cause.code : Cause → BitVec 2
  | .none => 0
  | .fetchRange => 1
  | .regIndex => 2

/-- One address of the program store: an instruction in the tuple form or in the binary form
(20_memory.md R41, R48). No store of bytes exists (log 6). -/
inductive Slot where
  | tuple (i : Instr)
  | word (W : InstrWord)
deriving DecidableEq, Repr

/-- The two events that come from the host (10_state.md R30). -/
inductive Request where
  | reset
  | launch
deriving DecidableEq, Repr

/-- Why a step stops with a fault. The block's two faults, FETCH_RANGE and REG_INDEX, are states
(`status = FAULTED` and a cause, 60_exceptions.md R174) and not stops of the model, so there is none
(log 8): safe, nothing is lost. -/
inductive Fault where
deriving DecidableEq, Repr

/-- Why the model gives no meaning. -/
inductive Refusal where
  /-- Raised by exec for an instruction that has no meaning yet. No arm raises it. Safe. -/
  | notModelled (mnemonic : String)
  /-- Raised by a cycle when IPSEL is 6 or 7: "no rule of this spec gives it a meaning, and the model must
  refuse it" (70_reset_and_hazards.md R194). Safe (log 13). -/
  | ipselIllegal
  /-- Raised by an instruction with a literal outside `MIN .. MAX` that is executed: such a program is
  refused at load, "Never: truncate" (93_implementation_defined.md U11). Safe (log 12). -/
  | literalRange
deriving DecidableEq, Repr

/-- The whole state: six registers, `status`, `cause`, the launch parameters (10_state.md R20, R27), and
two fields of the model's own for the interface (`ipselSet`, `request`). -/
structure State where
  /-- `x[0] .. x[5]` (R20). The instruction pointer is `x[IPSEL]`; there is no second copy (R24). -/
  regs : Vector Word NREG
  /-- `status` (R27). -/
  status : Status
  /-- `cause` (R27). -/
  cause : Cause
  /-- `IPSEL`, 3 bits; 6 and 7 are not legal (R27). -/
  ipsel : BitVec 3
  /-- Whether the host has set `IPSEL` since reset: "it must be set before launch" (R27; log 5), and it is
  supplied "exactly once per program" (R28). -/
  ipselSet : Bool
  /-- `PROG`, indexed by address (20_memory.md R40). `PLEN` is its length (log 7). -/
  prog : List Slot
  /-- The host event waiting to be taken (R30; log 9). -/
  request : Option Request
deriving DecidableEq, Repr

/-- `PLEN`, the number of instructions in `PROG` (R27). -/
def State.plen (s : State) : Nat := s.prog.length

/-- The state after `reset` (R36): all six registers 0, `IDLE`, `NONE`. `IPSEL` and `PROG` are
"unspecified until the host sets them": not set, and empty (DESIGN CHOICE, log 5). -/
def State.reset : State where
  regs := Vector.replicate NREG 0
  status := .idle
  cause := .none
  ipsel := 0
  ipselSet := false
  prog := []
  request := none

end Sys2Proof.Machine
end

