-- ==== Sys2Proof/Machine/Ops.lean ====
section
/-! DEFINITION. The named operations over registers, the program store and the run status: register
read and write, `wrap`, the fetch, fault entry, the increment with the halting test. -/

namespace Sys2Proof.Machine

/-- `wrap(v)`: the one register value congruent to `v` modulo `2^XLEN` (00_scope.md R7). -/
def wrap (v : Int) : Word := BitVec.ofInt XLEN v

/-- The register an index names, if it names one: `0 <= i <= 5` (44_processor_cycle.md R143). -/
def regIndex (i : Int) : Option (Fin NREG) :=
  if h : 0 ≤ i ∧ i ≤ 5 then some ⟨i.toNat, by simp only [NREG]; omega⟩ else none

/-- `x[k]`, read. No register is hard-wired and none is write-only (10_state.md R20, R23). -/
def State.x (s : State) (k : Fin NREG) : Word := s.regs[k.val]

/-- `x[k] <- v`. -/
def State.setX (s : State) (k : Fin NREG) (v : Word) : State :=
  { s with regs := s.regs.set k.val v }

/-- The register that `IPSEL` binds to the instruction pointer; none if `IPSEL` is 6 or 7 (10_state.md
R24, R27). -/
def State.ip (s : State) : Option (Fin NREG) :=
  if h : s.ipsel.toNat < NREG then some ⟨s.ipsel.toNat, h⟩ else none

/-- The instruction a slot holds: the tuple itself, or the decoded word (20_memory.md R41, R48). -/
def Slot.instr : Slot → Instr
  | .tuple i => i
  | .word W => decode W

/-- The fetch: `MemRead(a, 1) = PROG[a]`, defined for `0 <= a < PLEN` only (20_memory.md R42). -/
def fetch (s : State) (a : Int) : Option Instr :=
  if 0 ≤ a then (s.prog[a.toNat]?).map Slot.instr else none

/-- Fault entry (60_exceptions.md R174): `status <- FAULTED`, `cause <-` the code, no register written,
nothing saved. There is no handler, and no return: only `reset` leaves `FAULTED` (R176). -/
def raise (c : Cause) (s : State) : State := { s with status := .faulted, cause := c }

/-- The increment (44_processor_cycle.md R145): `x[IPSEL] <- wrap(x[IPSEL] + 1)`, on the register file as
the destination write left it. -/
def increment (p : Fin NREG) (s : State) : State := s.setX p (wrap ((s.x p).toInt + 1))

/-- The halting test (R146): `if x[IPSEL] >= PLEN then status <- HALTED`. -/
def haltTest (p : Fin NREG) (s : State) : State :=
  if (s.plen : Int) ≤ (s.x p).toInt then { s with status := .halted } else s

/-- The end of a cycle whose instruction completed: steps 4 and 5 of R140. -/
def advance (p : Fin NREG) (s : State) : State := haltTest p (increment p s)

end Sys2Proof.Machine
end

