-- ==== Sys2Proof/Machine/Operands.lean ====
section
/-! DEFINITION. Operand forms (30_encoding.md R64 to R66) and what every opcode has in common: the index
test, the operand reads, the one destination write (44_processor_cycle.md R142 to R144). -/

namespace Sys2Proof.Machine

/-- An operand in one of the two roles that give a value. An ignored field is no operand. -/
inductive Operand where
  /-- A register role: the operand value is `x[i]`. -/
  | reg (i : Int)
  /-- A literal role: the operand value is the field's own value. -/
  | lit (v : Int)
deriving DecidableEq, Repr

/-- The operand value; none if a register role names no register. A literal is its value, whole, signed,
`XLEN` bits (R66). -/
def Operand.value (s : State) : Operand → Option Word
  | .reg i => (regIndex i).map s.x
  | .lit v => some (BitVec.ofInt XLEN v)

/-- A literal operand lies in `MIN .. MAX` (R67). -/
def Operand.inRange : Operand → Bool
  | .reg _ => true
  | .lit v => literalOk v

/-- The destination write, after the index test (44_processor_cycle.md R143, R144). `v` is the result, or
none where an operand named no register. An index outside 0..5 raises REG_INDEX and the instruction has no
effect; a literal out of range has no meaning (log 12). -/
def writeDest (C : Int) (literals : Bool) (v : Option Word) (s : State) :
    Host.Outcome State Fault Refusal :=
  match regIndex C, v with
  | some c, some r => if literals then .next (s.setX c r) else .refused .literalRange
  | some _, none => .next (raise .regIndex s)
  | none, _ => .next (raise .regIndex s)

/-- An opcode with two operands: both are read before the write (R144). -/
def execTwo (f : Word → Word → Word) (a b : Operand) (C : Int) (s : State) :
    Host.Outcome State Fault Refusal :=
  writeDest C (a.inRange && b.inRange)
    ((a.value s).bind fun va => (b.value s).map fun vb => f va vb) s

/-- An opcode with the operand A alone (42_assignment.md R110). -/
def execOne (a : Operand) (C : Int) (s : State) : Host.Outcome State Fault Refusal :=
  writeDest C a.inRange (a.value s) s

end Sys2Proof.Machine
end

