-- ==== Sys2Proof/Machine/Arithmetic.lean ====
section
/-! DEFINITION. Addition and multiplication (40_arithmetic.md): `addr addi mulr muli`. Each is the execute
phase only; the increment and the halting test follow in the same cycle. -/

namespace Sys2Proof.Machine

/-- `add(a, b) = wrap(a + b)`, the exact sum of the signed values, wrapped (R90). -/
def add (u v : Word) : Word := wrap (u.toInt + v.toInt)

/-- `mul(a, b) = wrap(a * b)`, the exact product of the signed values, wrapped (R90). -/
def mul (u v : Word) : Word := wrap (u.toInt * v.toInt)

/-- `addr` (R91): `x[C] <- wrap(x[A] + x[B])`. -/
def execAddr (A B C : Int) (s : State) : Host.Outcome State Fault Refusal :=
  execTwo add (.reg A) (.reg B) C s

/-- `addi` (R92): `x[C] <- wrap(x[A] + B)`. -/
def execAddi (A B C : Int) (s : State) : Host.Outcome State Fault Refusal :=
  execTwo add (.reg A) (.lit B) C s

/-- `mulr` (R93): `x[C] <- wrap(x[A] * x[B])`. -/
def execMulr (A B C : Int) (s : State) : Host.Outcome State Fault Refusal :=
  execTwo mul (.reg A) (.reg B) C s

/-- `muli` (R94): `x[C] <- wrap(x[A] * B)`. -/
def execMuli (A B C : Int) (s : State) : Host.Outcome State Fault Refusal :=
  execTwo mul (.reg A) (.lit B) C s

end Sys2Proof.Machine
end

