-- ==== Sys2Proof/Machine/Assignment.lean ====
section
/-! DEFINITION. Assignment (42_assignment.md): `setr seti`. Execute phase only. -/

namespace Sys2Proof.Machine

/-- `setr` (R111): `x[C] <- x[A]`. Field `B` is not looked at (30_encoding.md R68). -/
def execSetr (A _B C : Int) (s : State) : Host.Outcome State Fault Refusal :=
  execOne (.reg A) C s

/-- `seti` (R112): `x[C] <- A`. Field `B` is not looked at (30_encoding.md R68). -/
def execSeti (A _B C : Int) (s : State) : Host.Outcome State Fault Refusal :=
  execOne (.lit A) C s

end Sys2Proof.Machine
end

