-- ==== Sys2Proof/Machine/Bitwise.lean ====
section
/-! DEFINITION. Bitwise AND and OR (41_bitwise.md): `banr bani borr bori`. Execute phase only. -/

namespace Sys2Proof.Machine

/-- `and(u, v) = signed(bits(u) AND bits(v))` (R100). -/
def bitAnd (u v : Word) : Word := u &&& v

/-- `or(u, v) = signed(bits(u) OR bits(v))` (R100). -/
def bitOr (u v : Word) : Word := u ||| v

/-- `banr` (R101): `x[C] <- and(x[A], x[B])`. -/
def execBanr (A B C : Int) (s : State) : Host.Outcome State Fault Refusal :=
  execTwo bitAnd (.reg A) (.reg B) C s

/-- `bani` (R102): `x[C] <- and(x[A], B)`. -/
def execBani (A B C : Int) (s : State) : Host.Outcome State Fault Refusal :=
  execTwo bitAnd (.reg A) (.lit B) C s

/-- `borr` (R103): `x[C] <- or(x[A], x[B])`. -/
def execBorr (A B C : Int) (s : State) : Host.Outcome State Fault Refusal :=
  execTwo bitOr (.reg A) (.reg B) C s

/-- `bori` (R104): `x[C] <- or(x[A], B)`. -/
def execBori (A B C : Int) (s : State) : Host.Outcome State Fault Refusal :=
  execTwo bitOr (.reg A) (.lit B) C s

end Sys2Proof.Machine
end

