-- ==== Sys2Proof/Machine/Flags.lean ====
section
/-! DEFINITION. The block has no flags and no condition codes (10_state.md R26): a comparison writes its
outcome, the integer 1 or 0, into the destination register (43_comparison.md R120). This file holds those
two outcomes. -/

namespace Sys2Proof.Machine

/-- A truth value as a register value: exactly 1 or exactly 0 (R120). -/
def truth (b : Bool) : Word := if b then 1 else 0

/-- Greater-than of the signed values, strict (R120). -/
def greaterThan (u v : Word) : Word := truth (decide (u.toInt > v.toInt))

/-- Equality of the signed values (R120). -/
def equalTo (u v : Word) : Word := truth (decide (u.toInt = v.toInt))

end Sys2Proof.Machine
end

