-- ==== Sys2Proof/Machine/Comparison.lean ====
section
/-! DEFINITION. Comparisons (43_comparison.md): `gtir gtri gtrr eqir eqri eqrr`. Execute phase only. The pair of
suffix letters `ii` does not exist (R127). -/

namespace Sys2Proof.Machine

/-- `gtir` (R121): `x[C] <- (if A > x[B] then 1 else 0)`. -/
def execGtir (A B C : Int) (s : State) : Host.Outcome State Fault Refusal :=
  execTwo greaterThan (.lit A) (.reg B) C s

/-- `gtri` (R122): `x[C] <- (if x[A] > B then 1 else 0)`. -/
def execGtri (A B C : Int) (s : State) : Host.Outcome State Fault Refusal :=
  execTwo greaterThan (.reg A) (.lit B) C s

/-- `gtrr` (R123): `x[C] <- (if x[A] > x[B] then 1 else 0)`. -/
def execGtrr (A B C : Int) (s : State) : Host.Outcome State Fault Refusal :=
  execTwo greaterThan (.reg A) (.reg B) C s

/-- `eqir` (R124): `x[C] <- (if A = x[B] then 1 else 0)`. -/
def execEqir (A B C : Int) (s : State) : Host.Outcome State Fault Refusal :=
  execTwo equalTo (.lit A) (.reg B) C s

/-- `eqri` (R125): `x[C] <- (if x[A] = B then 1 else 0)`. -/
def execEqri (A B C : Int) (s : State) : Host.Outcome State Fault Refusal :=
  execTwo equalTo (.reg A) (.lit B) C s

/-- `eqrr` (R126): `x[C] <- (if x[A] = x[B] then 1 else 0)`. -/
def execEqrr (A B C : Int) (s : State) : Host.Outcome State Fault Refusal :=
  execTwo equalTo (.reg A) (.reg B) C s

end Sys2Proof.Machine
end

