-- ==== Sys2Proof/Machine/Dispatch.lean ====
section
/-! DEFINITION. The dispatcher: the opcode alone selects the operation (44_processor_cycle.md R142). -/

namespace Sys2Proof.Machine

def exec (i : Instr) (s : State) : Host.Outcome State Fault Refusal :=
  match i with
  | .addr A B C => Sys2Proof.Machine.execAddr A B C s
  | .addi A B C => Sys2Proof.Machine.execAddi A B C s
  | .mulr A B C => Sys2Proof.Machine.execMulr A B C s
  | .muli A B C => Sys2Proof.Machine.execMuli A B C s
  | .banr A B C => Sys2Proof.Machine.execBanr A B C s
  | .bani A B C => Sys2Proof.Machine.execBani A B C s
  | .borr A B C => Sys2Proof.Machine.execBorr A B C s
  | .bori A B C => Sys2Proof.Machine.execBori A B C s
  | .setr A B C => Sys2Proof.Machine.execSetr A B C s
  | .seti A B C => Sys2Proof.Machine.execSeti A B C s
  | .gtir A B C => Sys2Proof.Machine.execGtir A B C s
  | .gtri A B C => Sys2Proof.Machine.execGtri A B C s
  | .gtrr A B C => Sys2Proof.Machine.execGtrr A B C s
  | .eqir A B C => Sys2Proof.Machine.execEqir A B C s
  | .eqri A B C => Sys2Proof.Machine.execEqri A B C s
  | .eqrr A B C => Sys2Proof.Machine.execEqrr A B C s

end Sys2Proof.Machine
end

