-- ==== Sys2Proof/Machine/Cycle.lean ====
section
/-! DEFINITION. The execution cycle (44_processor_cycle.md R140), and placing the next instruction to be
fetched. -/

namespace Sys2Proof.Machine

/-- After the execute phase: a raised fault ends the cycle at once, and nothing more is written (R140,
60_exceptions.md R174); otherwise the increment and the halting test follow. -/
def finish (p : Fin NREG) (t : State) : State :=
  if t.status = .faulted then t else advance p t

/-- One cycle of a running block (R140): range test, fetch, execute, increment, halting test. The range
test comes first (60_exceptions.md R175). An `IPSEL` that names no register has no meaning (log 13). -/
def cycle (s : State) : Host.Outcome State Fault Refusal :=
  match s.ip with
  | none => .refused .ipselIllegal
  | some p =>
    match fetch s (s.x p).toInt with
    | none => .next (raise .fetchRange s)
    | some i =>
      match exec i s with
      | .next t => .next (finish p t)
      | .fault f => .fault f
      | .refused r => .refused r

/-- The launch parameters and the run status as they stand when a run is in progress: `IPSEL` as set, or 0
where none legal is set (log 11). -/
def running (s : State) : State :=
  { s with
    status := .running
    cause := .none
    request := none
    ipselSet := true
    ipsel := if s.ipsel.toNat < NREG then s.ipsel else 0 }

/-- `s` with the slot `c` where the next cycle fetches: at the pointer's address where that is an address
of the program, else at address 0 with the pointer 0 (log 11). -/
def placeSlot (c : Slot) (s : State) : State :=
  let t := running s
  match t.ip with
  | none => t
  | some p =>
    if 0 ≤ (t.x p).toInt ∧ (t.x p).toInt < t.plen then
      { t with prog := t.prog.set (t.x p).toInt.toNat c }
    else
      { t.setX p 0 with prog := c :: t.prog.tail }

/-- The slot of the word whose bits are `nbits` bits of `w`, every bit above them 0. -/
def tableSlot (nbits w : Nat) : Slot := .word (BitVec.ofNat IW (w % 2 ^ nbits))

end Sys2Proof.Machine
end

