-- ==== Sys2Proof/Machine/HostPort.lean ====
section
/-! DEFINITION. The interface to the host (10_state.md R28 to R31, 70_reset_and_hazards.md R190 to R196):
what the host may do and when, the checks of a launch, taking `reset` and `launch`, the snapshot. -/

namespace Sys2Proof.Machine

/-- Why a launch is refused, by name (70_reset_and_hazards.md R194, R191; the checks of 30_encoding.md R69). -/
inductive LaunchProblem where
  /-- A launch is possible in state `IDLE` only (R191). -/
  | notIdle
  /-- `IPSEL` was never set (10_state.md R27). -/
  | ipselUnset
  /-- `wf_ipsel`: `IPSEL` is 6 or 7. -/
  | ipselRange
  /-- `wf_len`: `PLEN = 0`. -/
  | empty
  /-- `wf_len`: `PLEN > PLEN_MAX`. -/
  | tooLong
  /-- `wf_dest` fails of some instruction. -/
  | dest
  /-- `wf_A` fails of some instruction. -/
  | operandA
  /-- `wf_B` fails of some instruction. -/
  | operandB
deriving DecidableEq, Repr

/-- The check holds of every instruction of the program. -/
def State.allInstrs (s : State) (ok : Instr → Bool) : Bool := s.prog.all fun c => ok c.instr

/-- The first check of R69 that fails; none when the launch parameters are well formed. -/
def State.paramProblem (s : State) : Option LaunchProblem :=
  if !s.ipselSet then some .ipselUnset
  else if s.ip = none then some .ipselRange
  else if s.plen = 0 then some .empty
  else if PLEN_MAX < s.plen then some .tooLong
  else if !s.allInstrs Instr.wfDest then some .dest
  else if !s.allInstrs Instr.wfA then some .operandA
  else if !s.allInstrs Instr.wfB then some .operandB
  else none

/-- Why a launch now is refused; none when its precondition holds (R193). -/
def State.launchProblem (s : State) : Option LaunchProblem :=
  if s.status = .idle then s.paramProblem else some .notIdle

/-- Taking the event `launch`: where its precondition holds `status <- RUNNING` and nothing else changes
(R193); else the launch is refused and nothing changes (R191, R194). The request is done with (log 9). -/
def takeLaunch (s : State) : State :=
  match s.launchProblem with
  | none => { s with status := .running, request := none }
  | some _ => { s with request := none }

/-- Taking the event `reset`: the state of 10_state.md R36, from any state (R190). -/
def takeReset (_s : State) : State := State.reset

/-- Taking the event that is waiting, if one is (log 9). -/
def takeRequest : Request → State → State
  | .reset, s => takeReset s
  | .launch, s => takeLaunch s

/-- What the host can do to the block (10_state.md R28 to R30). -/
inductive HostMove where
  /-- Supply `IPSEL`. -/
  | setIpsel (v : Int)
  /-- Place `PROG` in the program store, and with it `PLEN`. -/
  | load (p : List Slot)
  /-- Assert `reset` or `launch`. -/
  | request (r : Request)
deriving DecidableEq, Repr

/-- The state after a move of the host; none where the spec gives the host no such move. `IPSEL`, `PROG`
and `launch` before the launch only (10_state.md R27, 70_reset_and_hazards.md R192, R195); `IPSEL` "exactly
once per program" (10_state.md R28), so not where it is set already; `reset` always (R190). A number that
does not fit the 3 bits of `IPSEL` cannot be set (log 14). -/
def hostMove (m : HostMove) (s : State) : Option State :=
  match m with
  | .setIpsel v =>
    if s.status = .idle ∧ s.request = none ∧ s.ipselSet = false ∧ 0 ≤ v ∧ v ≤ 7 then
      some { s with ipsel := BitVec.ofInt 3 v, ipselSet := true }
    else none
  | .load p =>
    if s.status = .idle ∧ s.request = none then some { s with prog := p } else none
  | .request .launch =>
    if s.status = .idle ∧ s.request = none then some { s with request := some .launch } else none
  | .request .reset => some { s with request := some .reset }

/-- The six register values in order (00_scope.md glossary, "Snapshot"). -/
def State.values (s : State) : Vector Int NREG :=
  #v[s.regs[0].toInt, s.regs[1].toInt, s.regs[2].toInt, s.regs[3].toInt, s.regs[4].toInt,
    s.regs[5].toInt]

/-- The output snapshot, read when `status` is `HALTED` (10_state.md R31); otherwise there is none. -/
def State.snapshot (s : State) : Option (Vector Int NREG) :=
  if s.status = .halted then some s.values else none

/-- The same six values as they can be read when `status` is `FAULTED`; they are no program's result
(R31). -/
def State.faultedRegisters (s : State) : Option (Vector Int NREG) :=
  if s.status = .faulted then some s.values else none

end Sys2Proof.Machine
end

