-- ==== Sys2Proof/Machine/Step.lean ====
section
/-! DEFINITION. One step of the block. -/

namespace Sys2Proof.Machine

/-- One step: a waiting host event is taken, between instructions (log 9); else a running block executes
one cycle (44_processor_cycle.md R140); else no cycle runs and nothing changes (70_reset_and_hazards.md
R196; log 10). -/
def step (s : State) : Host.Outcome State Fault Refusal :=
  match s.request with
  | some r => .next (takeRequest r s)
  | none =>
    match s.status with
    | .running => cycle s
    | .idle => .next s
    | .halted => .next s
    | .faulted => .next s

/-- `s` with the instruction of the table word where the very next step fetches (log 11). -/
def State.withFetchWord (s : State) (nbits w : Nat) : State := placeSlot (tableSlot nbits w) s

end Sys2Proof.Machine
end

