-- ==== Sys2Proof/Machine/Latch.lean ====
section
/-! DEFINITION. The implementation with a separate fetch-address latch that 44_processor_cycle.md R157
allows. It is no part of the machine: a statement says that it is the same machine. -/

namespace Sys2Proof.Machine

/-- The block with a latch `ip` beside its state. -/
structure Latched where
  ip : Word
  core : State
deriving DecidableEq, Repr

/-- Copy `x[IPSEL] + 1` back into the latch and the latch into `x[IPSEL]`; halt on the new latch value. -/
def latchBack (p : Fin NREG) (t : State) : Latched :=
  let ip := wrap ((t.x p).toInt + 1)
  let u := t.setX p ip
  { ip := ip, core := if (u.plen : Int) ≤ ip.toInt then { u with status := .halted } else u }

/-- One cycle with the latch: the fetch goes by the latch, which is copied into `x[IPSEL]` before the
instruction executes. -/
def latchedCycle (l : Latched) : Host.Outcome Latched Fault Refusal :=
  match l.core.ip with
  | none => .refused .ipselIllegal
  | some p =>
    match fetch l.core l.ip.toInt with
    | none => .next { l with core := raise .fetchRange l.core }
    | some i =>
      match exec i (l.core.setX p l.ip) with
      | .next t => .next (if t.status = .faulted then { l with core := t } else latchBack p t)
      | .fault f => .fault f
      | .refused r => .refused r

end Sys2Proof.Machine
end

