-- ==== Sys2Proof/Machine/TextForm.lean ====
section
/-! DEFINITION. The text form of a program and its load-time errors (30_encoding.md R72 to R76, R78). It
belongs to the loader, outside the block (00_scope.md R4); it is modelled because the spec records it. A
text is a list of characters. -/

namespace Sys2Proof.Machine

/-- A load-time error (R78). Each is fatal and comes before any launch. -/
inductive LoadError where
  /-- The first line is no `#ip` directive (R73). -/
  | missingDirective
  /-- A later line is an `#ip` directive (R73). -/
  | duplicateDirective
  /-- The directive's operand is not one digit 0 to 5 (R73). -/
  | badDirective
  /-- The line does not begin with one of the 16 mnemonics (R72, R75). -/
  | unknownMnemonic
  /-- The line has not exactly three operands, or one is no integer in `MIN .. MAX` (R67, R72, R74). -/
  | malformedOperand
deriving DecidableEq, Repr

/-- Cut at every `c`: never empty. -/
def splitAt (c : Char) : List Char → List (List Char)
  | [] => [[]]
  | d :: ds =>
    if d = c then [] :: splitAt c ds
    else
      match splitAt c ds with
      | f :: fs => (d :: f) :: fs
      | [] => [[d]]

/-- A separator of fields: a space or a tab (R74). -/
def isSeparator (c : Char) : Bool := c = ' ' || c = '\t'

/-- Cut at every run of separators (R74). A separator at either end leaves an empty field, which is no
mnemonic and no integer. -/
def fields : List Char → List (List Char)
  | [] => [[]]
  | d :: ds =>
    if isSeparator d then
      match ds with
      | e :: _ => if isSeparator e then fields ds else [] :: fields ds
      | [] => [[], []]
    else
      match fields ds with
      | f :: fs => (d :: f) :: fs
      | [] => [[d]]

/-- The value of a decimal digit. -/
def digit (c : Char) : Option Nat :=
  if '0'.toNat ≤ c.toNat ∧ c.toNat ≤ '9'.toNat then some (c.toNat - '0'.toNat) else none

/-- The value of one or more decimal digits after the value `n` of those before. -/
def digits (n : Nat) : List Char → Option Nat
  | [] => some n
  | c :: cs => (digit c).bind fun d => digits (10 * n + d) cs

/-- An integer: an optional `-`, then one or more digits (R74). -/
def integer : List Char → Option Int
  | [] => none
  | ['-'] => none
  | '-' :: cs => (digits 0 cs).map fun n => -(n : Int)
  | c :: cs => (digits 0 (c :: cs)).map fun n => (n : Int)

/-- An operand: an integer in `MIN .. MAX`, whatever its role (R67). -/
def operand (cs : List Char) : Option Int :=
  (integer cs).bind fun v => if literalOk v then some v else none

/-- The 16 mnemonics, in lower case (R63, R74). -/
def mnemonic : List Char → Option (Int → Int → Int → Instr)
  | ['a', 'd', 'd', 'r'] => some .addr
  | ['a', 'd', 'd', 'i'] => some .addi
  | ['m', 'u', 'l', 'r'] => some .mulr
  | ['m', 'u', 'l', 'i'] => some .muli
  | ['b', 'a', 'n', 'r'] => some .banr
  | ['b', 'a', 'n', 'i'] => some .bani
  | ['b', 'o', 'r', 'r'] => some .borr
  | ['b', 'o', 'r', 'i'] => some .bori
  | ['s', 'e', 't', 'r'] => some .setr
  | ['s', 'e', 't', 'i'] => some .seti
  | ['g', 't', 'i', 'r'] => some .gtir
  | ['g', 't', 'r', 'i'] => some .gtri
  | ['g', 't', 'r', 'r'] => some .gtrr
  | ['e', 'q', 'i', 'r'] => some .eqir
  | ['e', 'q', 'r', 'i'] => some .eqri
  | ['e', 'q', 'r', 'r'] => some .eqrr
  | _ => none

/-- The word `#ip` that begins the directive (R73). -/
def directiveWord : List Char := ['#', 'i', 'p']

/-- An instruction line `<mnemonic> <A> <B> <C>` (R72). -/
def instrLine (line : List Char) : Except LoadError Instr :=
  match fields line with
  | [] => .error .unknownMnemonic
  | m :: operands =>
    if m = directiveWord then .error .duplicateDirective
    else
      match mnemonic m with
      | none => .error .unknownMnemonic
      | some make =>
        match operands.map operand with
        | [some a, some b, some c] => .ok (make a b c)
        | _ => .error .malformedOperand

/-- The directive line `#ip <digit>`, the digit 0 to 5 (R73). -/
def directiveLine (line : List Char) : Except LoadError Nat :=
  match fields line with
  | [] => .error .missingDirective
  | w :: rest =>
    if w ≠ directiveWord then .error .missingDirective
    else
      match rest with
      | [[c]] =>
        match digit c with
        | some d => if d ≤ 5 then .ok d else .error .badDirective
        | none => .error .badDirective
      | _ => .error .badDirective

/-- Every instruction line, or the first error. The `k`-th line, counting from 0, is at address `k`
(R72). -/
def instrLines : List (List Char) → Except LoadError (List Instr)
  | [] => .ok []
  | l :: ls =>
    match instrLine l with
    | .error e => .error e
    | .ok i =>
      match instrLines ls with
      | .error e => .error e
      | .ok is => .ok (i :: is)

/-- A whole text: the directive on the first line, then the instruction lines (R73, R76). -/
def parseText (text : List Char) : Except LoadError (Nat × List Instr) :=
  match splitAt '\n' text with
  | [] => .error .missingDirective
  | first :: rest =>
    match directiveLine first with
    | .error e => .error e
    | .ok d =>
      match instrLines rest with
      | .error e => .error e
      | .ok p => .ok (d, p)

/-- The moves by which the host hands over a text that it accepts: `IPSEL`, `PROG`, then `launch`
(70_reset_and_hazards.md R192). On an error it makes none (R78). -/
def loaderMoves (text : List Char) : Except LoadError (List HostMove) :=
  match parseText text with
  | .error e => .error e
  | .ok (d, p) => .ok [.setIpsel d, .load (p.map Slot.tuple), .request .launch]

/-- The host makes its moves in turn; none if one of them is not open to it. -/
def hostMoves : List HostMove → State → Option State
  | [], s => some s
  | m :: ms, s => (hostMove m s).bind (hostMoves ms)

end Sys2Proof.Machine
end

