-- ==== Sys2Proof/Safety.lean ====
section
/-! DEFINITION. The words the statements use: reachable states, the invariant of the life of one run, what
an instruction leaves alone, a program without pointer writes. -/

namespace Sys2Proof.Safety

open Sys2Proof.Machine

/-- The states the block can be in: after reset, after a step, after a move of the host
(70_reset_and_hazards.md, "The life of one run"). -/
inductive Reachable : State → Prop
  | reset : Reachable State.reset
  | step {s t : State} : Reachable s → step s = .next t → Reachable t
  | host {s t : State} (m : HostMove) : Reachable s → hostMove m s = some t → Reachable t

/-- The launch parameters are well formed: the checks of 30_encoding.md R69. -/
def WellFormedLaunch (s : State) : Prop :=
  s.ipselSet = true ∧ (∃ p, s.ip = some p) ∧ 1 ≤ s.plen ∧ s.plen ≤ PLEN_MAX ∧
    ∀ c ∈ s.prog, WellFormed c.instr

/-- The value of the instruction pointer satisfies `P` (10_state.md R24). -/
def Pointer (s : State) (P : Int → Prop) : Prop := ∃ p, s.ip = some p ∧ P (s.x p).toInt

/-- What holds between any two steps of the life of one run: zeroed registers in `IDLE`; a well-formed
launch with the pointer below `PLEN` in `RUNNING`; the pointer at or past `PLEN` in `HALTED`; a negative
pointer and the cause FETCH_RANGE in `FAULTED`; no other cause anywhere. -/
def RunInv (s : State) : Prop :=
  match s.status with
  | .idle => s.cause = .none ∧ ∀ k, s.x k = 0
  | .running => s.cause = .none ∧ WellFormedLaunch s ∧ Pointer s (· < s.plen)
  | .halted => s.cause = .none ∧ WellFormedLaunch s ∧ Pointer s ((s.plen : Int) ≤ ·)
  | .faulted => s.cause = .fetchRange ∧ WellFormedLaunch s ∧ Pointer s (· < 0)

/-- `k` steps of the machine, stopping at the first fault or refusal. -/
def run (k : Nat) (s : State) : Host.Outcome State Fault Refusal := Host.Core.run core k s

/-- `t` is `s` but for the registers: status, cause, launch parameters and the waiting request. -/
def SameButRegisters (s t : State) : Prop :=
  t.status = s.status ∧ t.cause = s.cause ∧ t.ipsel = s.ipsel ∧ t.ipselSet = s.ipselSet ∧
    t.prog = s.prog ∧ t.request = s.request

/-- The frame of an instruction's execute phase: nothing but `x[c]` may differ, and every address of the
program store reads as before. -/
def OnlyRegister (c : Fin NREG) (s t : State) : Prop :=
  (∀ k, k ≠ c → t.x k = s.x k) ∧ SameButRegisters s t ∧ ∀ a, fetch t a = fetch s a

/-- `r` is the one value in `MIN .. MAX` congruent to `v` modulo `2^XLEN` (00_scope.md R7). -/
def WrapsTo (v r : Int) : Prop := MIN ≤ r ∧ r ≤ MAX ∧ (2 ^ XLEN : Int) ∣ v - r

/-- The index of a register, as an instruction field holds it. -/
def reg (k : Fin NREG) : Int := k.val

/-- A legal literal (30_encoding.md R67). -/
def IsLiteral (v : Int) : Prop := MIN ≤ v ∧ v ≤ MAX

/-- Every field that the opcode uses as a register index, and `C`, is in 0..5 (44_processor_cycle.md R140,
`regs_ok`). -/
def NamesRegisters (i : Instr) : Prop :=
  (0 ≤ i.C ∧ i.C ≤ 5) ∧ (i.roleA = .reg → 0 ≤ i.A ∧ i.A ≤ 5) ∧ (i.roleB = .reg → 0 ≤ i.B ∧ i.B ≤ 5)

/-- `a` is the operand value that a field `v` in the role gives in the state (30_encoding.md R64). -/
def OperandValue (s : State) : Role → Int → Int → Prop
  | .reg, v, a => ∃ k, v = reg k ∧ a = (s.x k).toInt
  | .lit, v, a => a = v
  | .ignored, _, _ => True

/-- `r` is the result of the instruction for the operand values `a` and `b` (the table of
44_processor_cycle.md R142). -/
def ResultOf : Instr → Int → Int → Int → Prop
  | .addr _ _ _, a, b, r => WrapsTo (a + b) r
  | .addi _ _ _, a, b, r => WrapsTo (a + b) r
  | .mulr _ _ _, a, b, r => WrapsTo (a * b) r
  | .muli _ _ _, a, b, r => WrapsTo (a * b) r
  | .banr _ _ _, a, b, r => r = (BitVec.ofInt XLEN a &&& BitVec.ofInt XLEN b).toInt
  | .bani _ _ _, a, b, r => r = (BitVec.ofInt XLEN a &&& BitVec.ofInt XLEN b).toInt
  | .borr _ _ _, a, b, r => r = (BitVec.ofInt XLEN a ||| BitVec.ofInt XLEN b).toInt
  | .bori _ _ _, a, b, r => r = (BitVec.ofInt XLEN a ||| BitVec.ofInt XLEN b).toInt
  | .setr _ _ _, a, _, r => r = a
  | .seti _ _ _, a, _, r => r = a
  | .gtir _ _ _, a, b, r => r = if a > b then 1 else 0
  | .gtri _ _ _, a, b, r => r = if a > b then 1 else 0
  | .gtrr _ _ _, a, b, r => r = if a > b then 1 else 0
  | .eqir _ _ _, a, b, r => r = if a = b then 1 else 0
  | .eqri _ _ _, a, b, r => r = if a = b then 1 else 0
  | .eqrr _ _ _, a, b, r => r = if a = b then 1 else 0

/-- What the end of a cycle makes of the state `t` that the execute phase left: the pointer register `p` is
one more, wrapped, every other register is as `t` has it, and the status is HALTED where the pointer is then
at or past `PLEN` (44_processor_cycle.md R145, R146). -/
def CycleEnd (p : Fin NREG) (t u : State) : Prop :=
  WrapsTo ((t.x p).toInt + 1) (u.x p).toInt ∧ (∀ k, k ≠ p → u.x k = t.x k) ∧
    (u.status = if (t.plen : Int) ≤ (u.x p).toInt then .halted else t.status) ∧
    u.cause = t.cause ∧ u.ipsel = t.ipsel ∧ u.ipselSet = t.ipselSet ∧ u.prog = t.prog ∧
    u.request = t.request

/-- A block in `RUNNING` with no request waiting, about to execute the instruction `i`, which is at the
address `a` that the pointer register `p` holds. -/
def AboutToExecute (s : State) (p : Fin NREG) (a : Nat) (i : Instr) : Prop :=
  s.status = .running ∧ s.request = none ∧ s.ip = some p ∧ (s.x p).toInt = a ∧
    (s.prog[a]?).map Slot.instr = some i

/-- The same program with every slot in the tuple form. -/
def asTuples (s : State) : State := { s with prog := s.prog.map fun c => .tuple c.instr }

/-- `f` on the next state of an outcome. -/
def mapNext {σ τ : Type} (f : σ → τ) :
    Host.Outcome σ Fault Refusal → Host.Outcome τ Fault Refusal
  | .next s => .next (f s)
  | .fault r => .fault r
  | .refused r => .refused r

/-- No instruction of the program writes the register `p`. -/
def NeverWrites (p : Fin NREG) (prog : List Slot) : Prop := ∀ c ∈ prog, c.instr.C ≠ reg p

/-- The state without what no instruction can read: `cause`, and whether `IPSEL` was set
(44_processor_cycle.md R156). -/
def programView (s : State) : State := { s with cause := .none, ipselSet := false }

end Sys2Proof.Safety
end

