-- ==== Sys2Proof/Certificates/Slice0/Obligations.lean ====
section
/-! DEFINITION. The statements for the provers. A docstring names the rule or the section of spec/ that a
statement rests on; "the spec's decision" marks what the spec itself chose where its source is silent. -/

open Sys2Proof Sys2Proof.Machine Sys2Proof.Safety

/-! ### The sixteen instructions -/

/-- 40_arithmetic.md section 2; wrap-around is the spec's decision D3. -/
def Obligations.AddFamilyResult : Prop :=
  (∀ (a b c : Fin NREG) (s : State), ∃ t, exec (.addr (reg a) (reg b) (reg c)) s = .next t ∧
      WrapsTo ((s.x a).toInt + (s.x b).toInt) (t.x c).toInt ∧ OnlyRegister c s t) ∧
  ∀ (a c : Fin NREG) (B : Int) (s : State), IsLiteral B →
    ∃ t, exec (.addi (reg a) B (reg c)) s = .next t ∧
      WrapsTo ((s.x a).toInt + B) (t.x c).toInt ∧ OnlyRegister c s t

/-- 40_arithmetic.md section 3; wrap-around is the spec's decision D3. -/
def Obligations.MultiplyFamilyResult : Prop :=
  (∀ (a b c : Fin NREG) (s : State), ∃ t, exec (.mulr (reg a) (reg b) (reg c)) s = .next t ∧
      WrapsTo ((s.x a).toInt * (s.x b).toInt) (t.x c).toInt ∧ OnlyRegister c s t) ∧
  ∀ (a c : Fin NREG) (B : Int) (s : State), IsLiteral B →
    ∃ t, exec (.muli (reg a) B (reg c)) s = .next t ∧
      WrapsTo ((s.x a).toInt * B) (t.x c).toInt ∧ OnlyRegister c s t

/-- 41_bitwise.md section 2: every bit of the result is the AND of the operands' bits. Two's complement is
the spec's decision D2. -/
def Obligations.AndFamilyResult : Prop :=
  (∀ (a b c : Fin NREG) (s : State), ∃ t, exec (.banr (reg a) (reg b) (reg c)) s = .next t ∧
      (∀ n, (t.x c).getLsbD n = ((s.x a).getLsbD n && (s.x b).getLsbD n)) ∧ OnlyRegister c s t) ∧
  ∀ (a c : Fin NREG) (B : Int) (s : State), IsLiteral B →
    ∃ t, exec (.bani (reg a) B (reg c)) s = .next t ∧
      (∀ n, (t.x c).getLsbD n = ((s.x a).getLsbD n && (BitVec.ofInt XLEN B).getLsbD n)) ∧
      OnlyRegister c s t

/-- 41_bitwise.md section 3: every bit of the result is the OR of the operands' bits. Two's complement is
the spec's decision D2. -/
def Obligations.OrFamilyResult : Prop :=
  (∀ (a b c : Fin NREG) (s : State), ∃ t, exec (.borr (reg a) (reg b) (reg c)) s = .next t ∧
      (∀ n, (t.x c).getLsbD n = ((s.x a).getLsbD n || (s.x b).getLsbD n)) ∧ OnlyRegister c s t) ∧
  ∀ (a c : Fin NREG) (B : Int) (s : State), IsLiteral B →
    ∃ t, exec (.bori (reg a) B (reg c)) s = .next t ∧
      (∀ n, (t.x c).getLsbD n = ((s.x a).getLsbD n || (BitVec.ofInt XLEN B).getLsbD n)) ∧
      OnlyRegister c s t

/-- 41_bitwise.md section 1, a consequence of R100: AND with `2^k - 1` reduces modulo `2^k`, also a
negative value. -/
def Obligations.AndWithMaskReducesModulo : Prop :=
  ∀ (a c : Fin NREG) (k : Nat) (s : State), k < XLEN →
    ∃ t, exec (.bani (reg a) (2 ^ k - 1) (reg c)) s = .next t ∧
      (t.x c).toInt = (s.x a).toInt % 2 ^ k

/-- 42_assignment.md R110: one operand, A; `B` is in the tuple, in the word and in the text line, is any
integer at all and changes nothing. -/
def Obligations.SetFamilyIgnoresB : Prop :=
  (∀ (a c : Fin NREG) (B : Int) (s : State), ∃ t, exec (.setr (reg a) B (reg c)) s = .next t ∧
      t.x c = s.x a ∧ OnlyRegister c s t) ∧
  (∀ (A B : Int) (c : Fin NREG) (s : State), IsLiteral A →
    ∃ t, exec (.seti A B (reg c)) s = .next t ∧ (t.x c).toInt = A ∧ OnlyRegister c s t) ∧
  (∀ (A B B' C : Int) (s : State), exec (.setr A B C) s = exec (.setr A B' C) s ∧
    exec (.seti A B C) s = exec (.seti A B' C) s) ∧
  (∀ i : Instr, (∃ A B C, i = .setr A B C) ∨ (∃ A B C, i = .seti A B C) →
    (i.roleB = .ignored ∧ (WellFormed i → (decode (encode i)).B = i.B) ∧
      ∀ line, instrLine line = .ok i →
        ∃ m a b c, fields line = [m, a, b, c] ∧ operand b = some i.B))

/-- 43_comparison.md R120: exactly 1 when the condition holds of the signed values, exactly 0 otherwise;
in `gtir` the literal is on the left of `>`, in `gtri` on the right. -/
def Obligations.ComparisonWritesOneOrZero : Prop :=
  (∀ (a b c : Fin NREG) (s : State),
    (∃ t, exec (.gtrr (reg a) (reg b) (reg c)) s = .next t ∧ OnlyRegister c s t ∧
      (t.x c).toInt = if (s.x a).toInt > (s.x b).toInt then 1 else 0) ∧
    ∃ t, exec (.eqrr (reg a) (reg b) (reg c)) s = .next t ∧ OnlyRegister c s t ∧
      (t.x c).toInt = if (s.x a).toInt = (s.x b).toInt then 1 else 0) ∧
  ∀ (r c : Fin NREG) (v : Int) (s : State), IsLiteral v →
    (∃ t, exec (.gtir v (reg r) (reg c)) s = .next t ∧ OnlyRegister c s t ∧
      (t.x c).toInt = if v > (s.x r).toInt then 1 else 0) ∧
    (∃ t, exec (.gtri (reg r) v (reg c)) s = .next t ∧ OnlyRegister c s t ∧
      (t.x c).toInt = if (s.x r).toInt > v then 1 else 0) ∧
    (∃ t, exec (.eqir v (reg r) (reg c)) s = .next t ∧ OnlyRegister c s t ∧
      (t.x c).toInt = if v = (s.x r).toInt then 1 else 0) ∧
    ∃ t, exec (.eqri (reg r) v (reg c)) s = .next t ∧ OnlyRegister c s t ∧
      (t.x c).toInt = if (s.x r).toInt = v then 1 else 0

/-- 43_comparison.md section 3: `eqir k r c` and `eqri r k c` give the same result, whatever the fields
hold. -/
def Obligations.EqualityIsSymmetricInItsTwoOpcodes : Prop :=
  ∀ (k r c : Int) (s : State), exec (.eqir k r c) s = exec (.eqri r k c) s

/-- 44_processor_cycle.md R144: every one of the sixteen opcodes, well formed, completes; its result goes
to `x[C]` and to nothing else; both operands are read before the write; the increment that follows in the
cycle sees the written value. What the result is (R142) and that the increment wraps (R145) rest on the
spec's decisions D2 and D3 (log 20). -/
def Obligations.EveryInstructionWritesExactlyItsDestination : Prop :=
  (∀ (i : Instr) (s : State), WellFormed i → ∃ (c : Fin NREG) (a b : Int) (t : State), i.C = reg c ∧
      OperandValue s i.roleA i.A a ∧ OperandValue s i.roleB i.B b ∧ exec i s = .next t ∧
      ResultOf i a b (t.x c).toInt ∧ OnlyRegister c s t) ∧
  ∀ (i : Instr) (s : State) (p : Fin NREG) (n : Nat), WellFormed i → AboutToExecute s p n i →
    i.C = reg p → ∃ t u, exec i s = .next t ∧ step s = .next u ∧
      WrapsTo ((t.x p).toInt + 1) (u.x p).toInt

/-- 60_exceptions.md section 2 and section 3; the fault is the spec's decisions D6 and D17. An index
outside 0..5 in `C` or in a register role takes the REG_INDEX fault and changes no register; otherwise the
instruction never raises it. -/
def Obligations.RegisterIndexFaultIsTakenExactlyWhenAnIndexIsBad : Prop :=
  ∀ (i : Instr) (s : State),
    (¬ NamesRegisters i → exec i s = .next { s with status := .faulted, cause := .regIndex }) ∧
    (NamesRegisters i → ∀ t, exec i s = .next t → t.status = s.status ∧ t.cause = s.cause)

/-- The model's choice, log 12 (93_implementation_defined.md U11, "refuse ... Never: truncate"). -/
def Obligations.LiteralOutOfRangeIsRefused : Prop :=
  ∀ (i : Instr) (s : State), NamesRegisters i →
    ((i.roleA = .lit ∧ ¬ IsLiteral i.A) ∨ (i.roleB = .lit ∧ ¬ IsLiteral i.B)) →
    exec i s = .refused .literalRange

/-! ### The cycle -/

/-- 44_processor_cycle.md section 1: the step of a running block executes the instruction that the slot at
the pointer holds, as a tuple or as a word that decodes to it, and then ends the cycle. Wrap-around of the
increment is the spec's decision D3 (log 20), the encoding D8. -/
def Obligations.StepRunsTheDecodedInstruction : Prop :=
  ∀ (s : State) (p : Fin NREG) (n : Nat) (c : Slot) (i : Instr),
    s.status = .running → s.request = none → s.ip = some p → (s.x p).toInt = n →
    s.prog[n]? = some c → (c = .tuple i ∨ ∃ W, c = .word W ∧ decode W = i) → WellFormed i →
    ∃ t u, exec i s = .next t ∧ step s = .next u ∧ CycleEnd p t u

/-- 44_processor_cycle.md section 2: an instruction with `C = IPSEL` that computes `v` makes the next fetch
address `wrap(v + 1)`; there is no other change. Wrap-around is the spec's decision D3 (log 20). -/
def Obligations.PointerWriteIsAJumpToOneMore : Prop :=
  ∀ (s : State) (p : Fin NREG) (n : Nat) (i : Instr), AboutToExecute s p n i → WellFormed i →
    i.C = reg p → ∃ t u, exec i s = .next t ∧ step s = .next u ∧
      WrapsTo ((t.x p).toInt + 1) (u.x p).toInt ∧ (∀ k, k ≠ p → u.x k = s.x k) ∧
      u.status = if (s.plen : Int) ≤ (u.x p).toInt then .halted else .running

/-- 44_processor_cycle.md section 2: an instruction at address `n` that does not write the pointer is
followed by address `n + 1`, or the run halts there. -/
def Obligations.SequentialFlow : Prop :=
  ∀ (s : State) (p : Fin NREG) (n : Nat) (i : Instr), AboutToExecute s p n i → WellFormed i →
    s.plen ≤ PLEN_MAX → i.C ≠ reg p → ∃ u, step s = .next u ∧ (u.x p).toInt = n + 1 ∧
      u.status = if s.plen ≤ n + 1 then .halted else .running

/-- 44_processor_cycle.md R146: the test is made after the increment, on the signed pointer, against
`PLEN`; a halted block fetches no more and keeps its registers; a negative pointer goes on; no test is made
before the first cycle, so the first instruction of a well-formed program is always executed. That the
increment wraps (R145) is the spec's decision D3 (log 20). -/
def Obligations.HaltingTestFollowsTheIncrement : Prop :=
  (∀ (s : State) (p : Fin NREG) (n : Nat) (i : Instr), AboutToExecute s p n i → WellFormed i →
    ∃ t u, exec i s = .next t ∧ step s = .next u ∧ WrapsTo ((t.x p).toInt + 1) (u.x p).toInt ∧
      (u.status = .halted ↔ (s.plen : Int) ≤ (u.x p).toInt) ∧
      (u.status = .running ↔ (u.x p).toInt < s.plen) ∧
      (u.status = .halted → step u = .next u)) ∧
  ∀ (s : State) (p : Fin NREG), s.status = .running → s.request = none → s.ip = some p → s.x p = 0 →
    WellFormedLaunch s → ∃ i t u, (s.prog[0]?).map Slot.instr = some i ∧ exec i s = .next t ∧
      step s = .next u ∧ CycleEnd p t u

/-- 10_state.md section 3: no side effect on any state but the destination register and, through the cycle,
the pointer register (and the status, at a halt). -/
def Obligations.CycleTouchesOnlyDestinationAndPointer : Prop :=
  ∀ (s : State) (p : Fin NREG) (n : Nat) (i : Instr), AboutToExecute s p n i → WellFormed i →
    ∃ u, step s = .next u ∧ (∀ k, reg k ≠ i.C → k ≠ p → u.x k = s.x k) ∧
      u.cause = s.cause ∧ u.ipsel = s.ipsel ∧ u.ipselSet = s.ipselSet ∧ u.prog = s.prog ∧
      u.request = s.request ∧ ∀ a, fetch u a = fetch s a

/-- 44_processor_cycle.md R149: an instruction at address `n` that names the pointer register as an
operand reads `n`, its own address. What the result is (R142) rests on the spec's decisions D2 and D3
(log 20). -/
def Obligations.InstructionReadsItsOwnAddress : Prop :=
  ∀ (s : State) (p : Fin NREG) (n : Nat) (i : Instr), AboutToExecute s p n i → WellFormed i →
    ∃ (c : Fin NREG) (a b : Int) (t : State), i.C = reg c ∧ exec i s = .next t ∧
      OperandValue s i.roleA i.A a ∧ OperandValue s i.roleB i.B b ∧
      (i.roleA = .reg → i.A = reg p → a = n) ∧ (i.roleB = .reg → i.B = reg p → b = n) ∧
      ResultOf i a b (t.x c).toInt

/-- 44_processor_cycle.md section 2: a transfer to `t` continues at `t`, halts, or, where `t` is negative,
faults in the next cycle (the spec's decision D5). -/
def Obligations.TransferHasThreeOutcomes : Prop :=
  ∀ (s : State) (p : Fin NREG) (n : Nat) (i : Instr), AboutToExecute s p n i → WellFormed i →
    ∃ u, step s = .next u ∧
      (0 ≤ (u.x p).toInt → (u.x p).toInt < s.plen →
        ∃ j, AboutToExecute u p (u.x p).toInt.toNat j) ∧
      ((s.plen : Int) ≤ (u.x p).toInt → u.status = .halted) ∧
      ((u.x p).toInt < 0 → u.status = .running ∧
        step u = .next { u with status := .faulted, cause := .fetchRange })

/-- 42_assignment.md, the self-modifying jump property of its source: a `seti` into the pointer halts at
once if `A + 1 >= PLEN`, and otherwise resumes fetching at `A + 1`. -/
def Obligations.SetiIntoThePointerJumps : Prop :=
  ∀ (s : State) (p : Fin NREG) (n : Nat) (A B : Int),
    AboutToExecute s p n (.seti A B (reg p)) → -1 ≤ A → A < MAX →
    ∃ u, step s = .next u ∧ (u.x p).toInt = A + 1 ∧
      ((s.plen : Int) ≤ A + 1 → u.status = .halted) ∧
      (A + 1 < s.plen → ∃ j, AboutToExecute u p (A + 1).toNat j)

/-- 44_processor_cycle.md section 3, 70_reset_and_hazards.md section 2: `addi ip -1 ip` fetches itself again
for ever; the machine has the infinite run and reports nothing. -/
def Obligations.SelfJumpRunsForEver : Prop :=
  ∀ (s : State) (p : Fin NREG) (n : Nat), AboutToExecute s p n (.addi (reg p) (-1) (reg p)) →
    ∀ k, run k s = .next s

/-- 44_processor_cycle.md section 2, the pointer/halting property: a program of length N that never writes
the pointer register halts after exactly N steps with the pointer holding N. -/
def Obligations.StraightLineRunHaltsAfterPlenSteps : Prop :=
  ∀ (s : State) (p : Fin NREG), s.status = .running → s.request = none → s.ip = some p → s.x p = 0 →
    WellFormedLaunch s → NeverWrites p s.prog →
    (∀ k, k < s.plen → ∃ u, run k s = .next u ∧ u.status = .running ∧
      (u.x p).toInt = k) ∧
    ∃ t, run s.plen s = .next t ∧ t.status = .halted ∧ (t.x p).toInt = s.plen

/-! ### Faults -/

/-- 60_exceptions.md section 2 and section 3; the fault is the spec's decisions D5, D17 and D20. A pointer
outside `0 .. PLEN-1` at the start of a cycle takes FETCH_RANGE, before anything else is looked at, and
changes no register. -/
def Obligations.FetchOutOfRangeFaults : Prop :=
  ∀ (s : State) (p : Fin NREG), s.status = .running → s.request = none → s.ip = some p →
    ((s.x p).toInt < 0 ∨ (s.plen : Int) ≤ (s.x p).toInt) →
    step s = .next { s with status := .faulted, cause := .fetchRange }

/-- 60_exceptions.md section 3; the spec's decisions D6, D17. A REG_INDEX fault ends the cycle at once:
neither the destination nor the pointer is written, and the pointer holds the instruction's address. -/
def Obligations.RegisterIndexFaultIsPrecise : Prop :=
  ∀ (s : State) (p : Fin NREG) (n : Nat) (i : Instr), AboutToExecute s p n i → ¬ NamesRegisters i →
    ∃ t, step s = .next t ∧ t = { s with status := .faulted, cause := .regIndex } ∧
      (t.x p).toInt = n

/-- 70_reset_and_hazards.md R196: in HALTED and in FAULTED no cycle runs, and the registers, the status and
the cause stay until reset; the host reads the six values in HALTED. A launch that waits there is dropped
(the model's choice, log 9). -/
def Obligations.EndedRunsKeepTheirState : Prop :=
  (∀ s : State, s.status = .halted ∨ s.status = .faulted → s.request ≠ some .reset →
    step s = .next { s with request := none }) ∧
  ∀ s : State, s.status = .halted →
    ∃ v, s.snapshot = some v ∧ ∀ k : Fin NREG, v[k.val] = (s.x k).toInt

/-- The model's choice, log 13 (70_reset_and_hazards.md section 1, the spec's decision D6): an `IPSEL` of 6
or 7 names no register and a run with it has no meaning. -/
def Obligations.IllegalPointerBindingIsRefused : Prop :=
  ∀ s : State, s.status = .running → s.request = none → 6 ≤ s.ipsel.toNat →
    step s = .refused .ipselIllegal

/-! ### Reset, launch, the host -/

/-- 70_reset_and_hazards.md section 1, 10_state.md section 9: reset, in any state, leaves all six registers
0, IDLE and NONE (the spec's decisions D4 and D13). -/
def Obligations.ResetFromAnyState : Prop :=
  ∀ s : State, s.request = some .reset → ∃ t, step s = .next t ∧ (∀ k, t.x k = 0) ∧
    t.status = .idle ∧ t.cause = .none ∧ t.request = none

/-- 70_reset_and_hazards.md section 1; the event is the spec's decision D12. A launch from IDLE with
well-formed parameters sets RUNNING and changes nothing else. -/
def Obligations.WellFormedLaunchStartsTheRun : Prop :=
  ∀ s : State, s.request = some .launch → s.status = .idle → WellFormedLaunch s →
    step s = .next { s with status := .running, request := none }

/-- 70_reset_and_hazards.md section 1; the spec's decisions D6, D7 and D21. A launch that is not from IDLE,
or whose parameters fail a check, is refused: the status and everything else stay as they are. -/
def Obligations.RefusedLaunchChangesNothing : Prop :=
  ∀ s : State, s.request = some .launch → ¬ (s.status = .idle ∧ WellFormedLaunch s) →
    step s = .next { s with request := none } ∧ ∃ why, s.launchProblem = some why

/-- 70_reset_and_hazards.md section 1: after a launch the first instruction executed is that at address 0. -/
def Obligations.FirstInstructionIsAtAddressZero : Prop :=
  ∀ s : State, RunInv s → s.request = some .launch → s.status = .idle → WellFormedLaunch s →
    ∃ t p i, step s = .next t ∧ AboutToExecute t p 0 i ∧ (s.prog[0]?).map Slot.instr = some i

/-- 70_reset_and_hazards.md section 1, "The life of one run": the only changes of status. -/
def Obligations.LifeOfARun : Prop :=
  ∀ s t : State, step s = .next t →
    (s.request = some .reset ∧ t.status = .idle) ∨ t.status = s.status ∨
      (s.status = .idle ∧ s.request = some .launch ∧ t.status = .running) ∨
      (s.status = .running ∧ s.request = none ∧ (t.status = .halted ∨ t.status = .faulted))

/-- 70_reset_and_hazards.md section 1: from the launch on the host has no move but reset, and that always. -/
def Obligations.HostCanOnlyResetAfterLaunch : Prop :=
  (∀ s : State, hostMove (.request .reset) s = some { s with request := some .reset }) ∧
  ∀ (m : HostMove) (s t : State), s.status ≠ .idle → hostMove m s = some t → m = .request .reset

/-- 10_state.md R28 and R27; the interface is the spec's decision D12 and the cut of the host's moves the
model's, log 14. The host supplies `IPSEL` before the launch, in `IDLE`, and only where it is not supplied
yet; what it supplied stays, over every move and step, until a reset; a run starts only with an `IPSEL`
that was supplied and is in 0..5. -/
def Obligations.IpselIsSuppliedExactlyOnce : Prop :=
  (∀ (v : Int) (s : State), s.status = .idle → s.request = none → s.ipselSet = false → 0 ≤ v → v ≤ 5 →
    ∃ t p, hostMove (.setIpsel v) s = some t ∧ t = { s with ipsel := t.ipsel, ipselSet := true } ∧
      t.ip = some p ∧ reg p = v) ∧
  (∀ (v : Int) (s t : State), hostMove (.setIpsel v) s = some t →
    s.status = .idle ∧ s.ipselSet = false ∧ t.ipselSet = true) ∧
  (∀ (m : HostMove) (s t : State), s.ipselSet = true → hostMove m s = some t →
    t.ipselSet = true ∧ t.ipsel = s.ipsel) ∧
  ∀ s t : State, step s = .next t → s.request ≠ some .reset →
    t.ipselSet = s.ipselSet ∧ t.ipsel = s.ipsel ∧
      (t.status = .running → s.status ≠ .running → s.ipselSet = true ∧ ∃ p, s.ip = some p)

/-- 10_state.md section 8: the snapshot is the six values in order, and there is one in HALTED only. -/
def Obligations.SnapshotIsReadInHaltedOnly : Prop :=
  ∀ s : State,
    (s.status = .halted → ∃ v, s.snapshot = some v ∧ ∀ k : Fin NREG, v[k.val] = (s.x k).toInt) ∧
    (s.status ≠ .halted → s.snapshot = none)

/-- 20_memory.md R44: nothing writes the program store during a run, no instruction and no move of the
host; neither does anything rebind the pointer. -/
def Obligations.NothingWritesTheProgramStore : Prop :=
  (∀ (i : Instr) (s t : State), exec i s = .next t → t.prog = s.prog ∧ t.ipsel = s.ipsel) ∧
  (∀ s t : State, step s = .next t → s.request ≠ some .reset →
    t.prog = s.prog ∧ t.ipsel = s.ipsel ∧ ∀ a, fetch t a = fetch s a) ∧
  ∀ (m : HostMove) (s t : State), s.status ≠ .idle → hostMove m s = some t → t.prog = s.prog

/-- 44_processor_cycle.md section 4: `cause` (and whether `IPSEL` was set) cannot be read by a program: a
running block steps alike whatever they hold. -/
def Obligations.ProgramCannotReadTheCause : Prop :=
  ∀ (s : State) (c : Cause) (b : Bool), s.status = .running → s.request = none →
    mapNext programView (step { s with cause := c, ipselSet := b }) =
      mapNext programView (step s)

/-! ### The binary word -/

/-- 30_encoding.md section 6; the encoding is the spec's decision D8. Decode of encode is the instruction,
for every well-formed instruction of every opcode. -/
def Obligations.DecodeOfEncode : Prop :=
  ∀ i : Instr, WellFormed i → decode (encode i) = i

/-- 30_encoding.md section 6; the encoding is the spec's decision D8. Encode of decode is the word, for
every word. R77 says it of the words whose `C` is at most 5; that it holds of those whose `C` is the
reserved 6 or 7 is the model's choice of `encode` there, log 22. -/
def Obligations.EncodeOfDecode : Prop :=
  ∀ W : InstrWord, encode (decode W) = W

/-- 30_encoding.md section 1: which bits of the word each field is, `op` and `C` unsigned, `A` and `B`
signed. -/
def Obligations.DecodeReadsTheFieldsAtTheirPlaces : Prop :=
  ∀ W : InstrWord, (decode W).opnum.val = W.toNat % 2 ^ 4 ∧
    (decode W).C = ((W.toNat / 2 ^ 4 % 2 ^ 3 : Nat) : Int) ∧
    WrapsTo ((W.toNat / 2 ^ 7 : Nat) : Int) (decode W).A ∧
    WrapsTo ((W.toNat / 2 ^ (XLEN + 7) : Nat) : Int) (decode W).B

/-- 95_test_vectors.md V10, one word per opcode (XLEN = 64, log 1). -/
def Obligations.DecodeSanityWords : Prop :=
  decodeTableWord 136 0x00000000000000010000000000000000B0 = some (.addr 1 2 3) ∧
  decodeTableWord 136 0x0000000000000000800000000000000001 = some (.addi 0 1 0) ∧
  decodeTableWord 136 0x7FFFFFFFFFFFFFFF000000000000000143 = some (.muli 2 (-2) 4) ∧
  decodeTableWord 136 0x000000000000007F8000000000000000A5 = some (.bani 1 255 2) ∧
  decodeTableWord 136 0x0000000000000080000000000000000127 = some (.bori 2 256 2) ∧
  decodeTableWord 136 0x00000000000000007FFFFFFFFFFFFFFF89 = some (.seti (-1) 0 0) ∧
  decodeTableWord 136 0x000000000000000200000000000000001A = some (.gtir 0 4 1) ∧
  decodeTableWord 136 0x7FFFFFFFFFFFFFFF8000000000000000AE = some (.eqri 1 (-1) 2)

/-- 30_encoding.md section 1, 20_memory.md section 2 (the spec's decisions D8 and D15; log 6): the two
forms of a program, words and tuples, run alike: putting every slot into the tuple form commutes with the
step. -/
def Obligations.WordAndTupleProgramsRunAlike : Prop :=
  ∀ s : State, step (asTuples s) = mapNext asTuples (step s)

/-! ### Whole runs -/

/-- The invariant of the life of one run holds after reset (10_state.md section 9). -/
def Obligations.InvariantHoldsAtReset : Prop := RunInv State.reset

/-- Every step keeps the invariant of the life of one run. -/
def Obligations.StepKeepsTheInvariant : Prop :=
  ∀ s t : State, RunInv s → step s = .next t → RunInv t

/-- Every move of the host keeps it. -/
def Obligations.HostMovesKeepTheInvariant : Prop :=
  ∀ (m : HostMove) (s t : State), RunInv s → hostMove m s = some t → RunInv t

/-- 44_processor_cycle.md section 1 and section 3, 60_exceptions.md section 2: in every reachable state
REG_INDEX was never raised, a fault is FETCH_RANGE with a negative pointer, and a halt has the pointer at
or past `PLEN`. -/
def Obligations.ReachableFaultsAreNegativePointersOnly : Prop :=
  ∀ s : State, Reachable s → s.cause ≠ .regIndex ∧
    (s.status = .faulted → s.cause = .fetchRange ∧ Pointer s (· < 0)) ∧
    (s.status = .halted → s.cause = .none ∧ Pointer s ((s.plen : Int) ≤ ·)) ∧
    (s.status = .running → s.cause = .none ∧ Pointer s (· < s.plen))

/-- 60_exceptions.md section 1: from every reachable state the block takes a step; nothing is refused. -/
def Obligations.ReachableStatesAlwaysStep : Prop :=
  ∀ s : State, Reachable s → ∃ t, step s = .next t

/-- 44_processor_cycle.md section 5: the implementation with a fetch-address latch is the same machine. -/
def Obligations.LatchedImplementationIsTheSameMachine : Prop :=
  ∀ (s : State) (p : Fin NREG), s.status = .running → s.ip = some p →
    latchedCycle { ip := s.x p, core := s } =
      mapNext (fun t => { ip := t.x p, core := t }) (cycle s)

/-! ### The text form -/

/-- 30_encoding.md section 5; the position of the directive and the lexical form are the spec's decision
D18, their strict reading log 17. An accepted text has its directive `#ip <digit>` on the first line, with
the digit that `IPSEL` is set to, 0 to 5, and one instruction a line after it, the `k`-th at address `k`. -/
def Obligations.AcceptedTextHasOneInstructionALine : Prop :=
  ∀ (text : List Char) (d : Nat) (prog : List Instr), parseText text = .ok (d, prog) →
    (∃ first c, (splitAt '\n' text)[0]? = some first ∧ directiveLine first = .ok d ∧
      fields first = [directiveWord, [c]] ∧ digit c = some d) ∧
    d ≤ 5 ∧ (splitAt '\n' text).length = prog.length + 1 ∧
    ∀ (k : Nat) (line : List Char), (splitAt '\n' text)[k + 1]? = some line →
      ∃ i, instrLine line = .ok i ∧ prog[k]? = some i

/-- 70_reset_and_hazards.md section 1: handed to a block that was reset, an accepted text whose program is
well formed is launched, with its pointer register and its first instruction. -/
def Obligations.AcceptedWellFormedTextIsLaunched : Prop :=
  ∀ (text : List Char) (d : Nat) (prog : List Instr), parseText text = .ok (d, prog) →
    prog ≠ [] → prog.length ≤ PLEN_MAX → (∀ i ∈ prog, WellFormed i) →
    ∃ ms s t, loaderMoves text = .ok ms ∧ hostMoves ms State.reset = some s ∧ step s = .next t ∧
      ∃ (p : Fin NREG) (i : Instr), p.val = d ∧ AboutToExecute t p 0 i ∧ prog[0]? = some i
end

