-- ==== Sys2Proof/Laws/State.lean ====
section
/-! SUPPORT. One lemma per field per update of the state, and register read after write. -/

namespace Sys2Proof.Machine

variable (s : State) (k : Fin NREG) (v : Word) (c : Cause)

@[simp] theorem State.setX_status : (s.setX k v).status = s.status := rfl
@[simp] theorem State.setX_cause : (s.setX k v).cause = s.cause := rfl
@[simp] theorem State.setX_ipsel : (s.setX k v).ipsel = s.ipsel := rfl
@[simp] theorem State.setX_ipselSet : (s.setX k v).ipselSet = s.ipselSet := rfl
@[simp] theorem State.setX_prog : (s.setX k v).prog = s.prog := rfl
@[simp] theorem State.setX_request : (s.setX k v).request = s.request := rfl
@[simp] theorem State.setX_plen : (s.setX k v).plen = s.plen := rfl
@[simp] theorem State.setX_ip : (s.setX k v).ip = s.ip := rfl
@[simp] theorem State.fetch_setX (a : Int) : fetch (s.setX k v) a = fetch s a := rfl

@[simp] theorem raise_status : (raise c s).status = .faulted := rfl
@[simp] theorem raise_cause : (raise c s).cause = c := rfl
@[simp] theorem raise_regs : (raise c s).regs = s.regs := rfl
@[simp] theorem raise_ipsel : (raise c s).ipsel = s.ipsel := rfl
@[simp] theorem raise_ipselSet : (raise c s).ipselSet = s.ipselSet := rfl
@[simp] theorem raise_prog : (raise c s).prog = s.prog := rfl
@[simp] theorem raise_request : (raise c s).request = s.request := rfl
@[simp] theorem raise_plen : (raise c s).plen = s.plen := rfl
@[simp] theorem raise_ip : (raise c s).ip = s.ip := rfl
@[simp] theorem raise_x : (raise c s).x k = s.x k := rfl
@[simp] theorem fetch_raise (a : Int) : fetch (raise c s) a = fetch s a := rfl

/-- A register reads as the value last written to it. -/
@[simp] theorem State.x_setX_same : (s.setX k v).x k = v := by
  simp [State.x, State.setX]

/-- A register write leaves every other register alone. -/
theorem State.x_setX_of_ne {j : Fin NREG} (h : j ≠ k) : (s.setX k v).x j = s.x j := by
  have hne : (k : Nat) ≠ (j : Nat) := fun e => h (Fin.ext e.symm)
  simp [State.x, State.setX, hne]

theorem State.x_setX (j : Fin NREG) : (s.setX k v).x j = if j = k then v else s.x j := by
  by_cases h : j = k
  · subst h; simp
  · simp [h, State.x_setX_of_ne s k v h]

/-- Writing a register with its own value changes nothing. -/
@[simp] theorem State.setX_self : s.setX k (s.x k) = s := by
  simp [State.x, State.setX]

/-- The later of two writes to one register wins. -/
@[simp] theorem State.setX_setX (w : Word) : (s.setX k v).setX k w = s.setX k w := by
  simp [State.setX]

/-- Two states are equal when every register reads alike and every other field is equal. -/
theorem State.ext_of_x {s t : State} (hx : ∀ k, s.x k = t.x k) (h1 : s.status = t.status)
    (h2 : s.cause = t.cause) (h3 : s.ipsel = t.ipsel) (h4 : s.ipselSet = t.ipselSet)
    (h5 : s.prog = t.prog) (h6 : s.request = t.request) : s = t := by
  have hregs : s.regs = t.regs := by
    apply Vector.ext
    intro i hi
    exact hx ⟨i, hi⟩
  cases s
  cases t
  simp_all

@[simp] theorem increment_status (p : Fin NREG) : (increment p s).status = s.status := rfl
@[simp] theorem increment_cause (p : Fin NREG) : (increment p s).cause = s.cause := rfl
@[simp] theorem increment_ipsel (p : Fin NREG) : (increment p s).ipsel = s.ipsel := rfl
@[simp] theorem increment_ipselSet (p : Fin NREG) : (increment p s).ipselSet = s.ipselSet := rfl
@[simp] theorem increment_prog (p : Fin NREG) : (increment p s).prog = s.prog := rfl
@[simp] theorem increment_request (p : Fin NREG) : (increment p s).request = s.request := rfl
@[simp] theorem increment_plen (p : Fin NREG) : (increment p s).plen = s.plen := rfl
@[simp] theorem increment_ip (p : Fin NREG) : (increment p s).ip = s.ip := rfl

@[simp] theorem increment_x_same (p : Fin NREG) :
    (increment p s).x p = wrap ((s.x p).toInt + 1) := by simp [increment]

theorem increment_x_of_ne {p j : Fin NREG} (h : j ≠ p) : (increment p s).x j = s.x j :=
  State.x_setX_of_ne s p _ h

/-- Everything the halting test can do. -/
theorem haltTest_cases (p : Fin NREG) :
    ((s.plen : Int) ≤ (s.x p).toInt ∧ haltTest p s = { s with status := .halted }) ∨
      ((s.x p).toInt < s.plen ∧ haltTest p s = s) := by
  unfold haltTest
  split
  · exact .inl ⟨‹_›, rfl⟩
  · exact .inr ⟨by omega, rfl⟩

theorem haltTest_fields (p : Fin NREG) :
    (haltTest p s).regs = s.regs ∧ (haltTest p s).cause = s.cause ∧
      (haltTest p s).ipsel = s.ipsel ∧ (haltTest p s).ipselSet = s.ipselSet ∧
      (haltTest p s).prog = s.prog ∧ (haltTest p s).request = s.request := by
  unfold haltTest
  split <;> simp

variable (p : Fin NREG)

@[simp] theorem advance_cause : (advance p s).cause = s.cause := (haltTest_fields _ p).2.1
@[simp] theorem advance_ipsel : (advance p s).ipsel = s.ipsel := (haltTest_fields _ p).2.2.1
@[simp] theorem advance_ipselSet : (advance p s).ipselSet = s.ipselSet :=
  (haltTest_fields _ p).2.2.2.1
@[simp] theorem advance_prog : (advance p s).prog = s.prog := (haltTest_fields _ p).2.2.2.2.1
@[simp] theorem advance_request : (advance p s).request = s.request :=
  (haltTest_fields _ p).2.2.2.2.2

@[simp] theorem advance_plen : (advance p s).plen = s.plen := by simp [State.plen]

@[simp] theorem advance_ip : (advance p s).ip = s.ip := by simp [State.ip]

@[simp] theorem fetch_advance (a : Int) : fetch (advance p s) a = fetch s a := by simp [fetch]

theorem advance_x (j : Fin NREG) : (advance p s).x j = (increment p s).x j := by
  simp [advance, State.x, (haltTest_fields (increment p s) p).1]

@[simp] theorem advance_x_same : (advance p s).x p = wrap ((s.x p).toInt + 1) := by
  simp [advance_x]

theorem advance_x_of_ne {j : Fin NREG} (h : j ≠ p) : (advance p s).x j = s.x j := by
  rw [advance_x, increment_x_of_ne s h]

/-- The status after a completed cycle: HALTED exactly when the incremented pointer is at or past
`PLEN` (R146). -/
theorem advance_status :
    (advance p s).status =
      if (s.plen : Int) ≤ ((advance p s).x p).toInt then .halted else s.status := by
  rw [advance_x]
  unfold advance
  obtain ⟨h, e⟩ | ⟨h, e⟩ := haltTest_cases (increment p s) p
  · simp only [increment_plen] at h
    rw [e, if_pos h]
  · simp only [increment_plen] at h
    rw [e, if_neg (by omega), increment_status]

end Sys2Proof.Machine
end

