-- ==== Sys2Proof/Laws/Word.lean ====
section
/-! SUPPORT. The register width, the range of a register value, and `wrap`. Nothing here uses a fact about
`XLEN` beyond `four_le_XLEN`. -/

namespace Sys2Proof

/-- The one fact about the width that the spec gives (00_scope.md R5). -/
theorem four_le_XLEN : 4 ≤ XLEN := by decide

theorem XLEN_pos : 0 < XLEN := lt_of_lt_of_le (by decide) four_le_XLEN

/-- The largest program is at most `MAX` instructions long (R5, D11). -/
theorem plenMax_le_max : (PLEN_MAX : Int) ≤ MAX := by
  have h : 1 ≤ 2 ^ (XLEN - 1) := Nat.one_le_two_pow
  simp only [PLEN_MAX, MAX]
  push_cast [Nat.cast_sub h]
  exact le_refl _

/-- Half the number of patterns, and the whole. -/
theorem two_pow_XLEN : (2 : Int) ^ XLEN = 2 * 2 ^ (XLEN - 1) := by
  conv_lhs => rw [← Nat.sub_add_cancel XLEN_pos, pow_succ]
  ring

theorem eight_le_half : (8 : Int) ≤ 2 ^ (XLEN - 1) := by
  have h : 3 ≤ XLEN - 1 := by have := four_le_XLEN; omega
  calc (8 : Int) = 2 ^ 3 := by norm_num
    _ ≤ 2 ^ (XLEN - 1) := pow_le_pow_right₀ (by norm_num) h

theorem min_eq : MIN = -(2 ^ (XLEN - 1)) := rfl

theorem max_eq : MAX = 2 ^ (XLEN - 1) - 1 := rfl

/-- A register value lies in `MIN .. MAX` (10_state.md R22). -/
theorem word_range (v : Word) : MIN ≤ v.toInt ∧ v.toInt ≤ MAX := by
  have h1 := BitVec.le_toInt v
  have h2 := BitVec.toInt_lt (x := v)
  rw [min_eq, max_eq]
  omega

theorem literalOk_iff {v : Int} : literalOk v = true ↔ MIN ≤ v ∧ v ≤ MAX := by
  simp [literalOk]

theorem indexOk_iff {i : Int} : indexOk i = true ↔ 0 ≤ i ∧ i ≤ 5 := by
  simp [indexOk]

/-- Every register index is a legal literal, whatever the width. -/
theorem literalOk_of_indexOk {i : Int} (h : indexOk i = true) : literalOk i = true := by
  rw [literalOk_iff, min_eq, max_eq]
  have := eight_le_half
  have := indexOk_iff.1 h
  omega

namespace Machine

open Safety

/-- `wrap` is the balanced remainder modulo `2^XLEN`. -/
theorem wrap_toInt (v : Int) : (wrap v).toInt = v.bmod (2 ^ XLEN) := by
  simp [wrap]

/-- `wrap` leaves a value in `MIN .. MAX` alone. -/
theorem wrap_toInt_of_range {v : Int} (h1 : MIN ≤ v) (h2 : v ≤ MAX) : (wrap v).toInt = v := by
  rw [wrap_toInt]
  rw [min_eq] at h1
  rw [max_eq] at h2
  have := two_pow_XLEN
  apply Int.bmod_eq_of_le_mul_two
  · push_cast; omega
  · push_cast; omega

@[simp] theorem wrap_self (v : Word) : wrap v.toInt = v := by
  simp [wrap]

/-- `wrap v` is in the range and congruent to `v` (00_scope.md R7). -/
theorem wrapsTo_wrap (v : Int) : WrapsTo v (wrap v).toInt := by
  refine ⟨(word_range _).1, (word_range _).2, ?_⟩
  rw [wrap_toInt]
  have : v % ((2 ^ XLEN : Nat) : Int) = (v.bmod (2 ^ XLEN)) % ((2 ^ XLEN : Nat) : Int) :=
    (Int.bmod_emod).symm
  have := Int.ModEq.dvd (a := v.bmod (2 ^ XLEN)) (b := v) (n := ((2 ^ XLEN : Nat) : Int)) this.symm
  simpa using this

/-- There is only one such value. -/
theorem WrapsTo.unique {v r : Int} (h : WrapsTo v r) : r = (wrap v).toInt := by
  obtain ⟨a1, a2, d1⟩ := h
  obtain ⟨b1, b2, d2⟩ := wrapsTo_wrap v
  have hd : (2 ^ XLEN : Int) ∣ r - (wrap v).toInt := by
    have := dvd_sub d2 d1
    simpa using this
  have hp := two_pow_XLEN
  have := eight_le_half
  rw [min_eq] at a1 b1
  rw [max_eq] at a2 b2
  obtain ⟨q, hq⟩ := hd
  have hq0 : q = 0 := by
    by_contra hne
    rcases lt_or_gt_of_ne hne with h | h
    · have : (2 ^ XLEN : Int) * q ≤ (2 ^ XLEN : Int) * (-1) :=
        mul_le_mul_of_nonneg_left (by omega) (by omega)
      omega
    · have : (2 ^ XLEN : Int) * 1 ≤ (2 ^ XLEN : Int) * q :=
        mul_le_mul_of_nonneg_left (by omega) (by omega)
      omega
  rw [hq0] at hq
  omega

theorem wrapsTo_iff {v r : Int} : WrapsTo v r ↔ r = (wrap v).toInt :=
  ⟨WrapsTo.unique, fun h => h ▸ wrapsTo_wrap v⟩

/-- A literal operand in range keeps its value. -/
theorem literal_toInt {v : Int} (h1 : MIN ≤ v) (h2 : v ≤ MAX) :
    (BitVec.ofInt XLEN v).toInt = v := wrap_toInt_of_range h1 h2

@[simp] theorem truth_toInt (b : Bool) : (truth b).toInt = if b then 1 else 0 := by
  cases b
  · simp [truth]
  · have h := wrap_toInt_of_range (v := 1) (by rw [min_eq]; have := eight_le_half; omega)
      (by rw [max_eq]; have := eight_le_half; omega)
    simpa [truth, wrap] using h

end Machine

end Sys2Proof
end

