-- ==== Sys2Proof/Laws/Operands.lean ====
section
/-! SUPPORT. What the execute phase of an instruction can do, once for all opcodes: it writes the
destination, or raises REG_INDEX, or refuses an out-of-range literal. -/

namespace Sys2Proof.Machine

/-- The register an index names, for indices that are register numbers. -/
@[simp] theorem regIndex_val (k : Fin NREG) : regIndex (k.val : Int) = some k := by
  have h : (0 : Int) ≤ (k.val : Int) ∧ (k.val : Int) ≤ 5 := by
    have := k.isLt
    simp only [NREG] at this
    omega
  simp [regIndex, h]

theorem regIndex_eq_some {i : Int} {k : Fin NREG} : regIndex i = some k ↔ i = (k.val : Int) := by
  constructor
  · intro h
    unfold regIndex at h
    split at h
    · cases h
      have := ‹0 ≤ i ∧ i ≤ 5›
      simp only
      omega
    · cases h
  · rintro rfl
    exact regIndex_val k

theorem regIndex_eq_none {i : Int} : regIndex i = none ↔ indexOk i = false := by
  unfold regIndex indexOk
  split <;> simp [*]

theorem exists_regIndex {i : Int} (h : indexOk i = true) : ∃ k, regIndex i = some k := by
  cases e : regIndex i with
  | some k => exact ⟨k, rfl⟩
  | none => rw [regIndex_eq_none, h] at e; cases e

theorem exists_of_indexOk {i : Int} (h : indexOk i = true) : ∃ k : Fin NREG, i = (k.val : Int) := by
  obtain ⟨k, hk⟩ := exists_regIndex h
  exact ⟨k, regIndex_eq_some.1 hk⟩

@[simp] theorem indexOk_val (k : Fin NREG) : indexOk (k.val : Int) = true := by
  cases e : indexOk (k.val : Int) with
  | true => rfl
  | false => rw [← regIndex_eq_none, regIndex_val] at e; cases e

/-- The operand value a field gives, by its role; an ignored field gives a value nothing depends on. -/
def fieldValue (s : State) : Role → Int → Option Word
  | .reg, v => (regIndex v).map s.x
  | .lit, v => some (BitVec.ofInt XLEN v)
  | .ignored, _ => some 0

/-- The operation an opcode selects (44_processor_cycle.md R142). -/
def alu : Instr → Word → Word → Word
  | .addr _ _ _ => add
  | .addi _ _ _ => add
  | .mulr _ _ _ => mul
  | .muli _ _ _ => mul
  | .banr _ _ _ => bitAnd
  | .bani _ _ _ => bitAnd
  | .borr _ _ _ => bitOr
  | .bori _ _ _ => bitOr
  | .setr _ _ _ => fun a _ => a
  | .seti _ _ _ => fun a _ => a
  | .gtir _ _ _ => greaterThan
  | .gtri _ _ _ => greaterThan
  | .gtrr _ _ _ => greaterThan
  | .eqir _ _ _ => equalTo
  | .eqri _ _ _ => equalTo
  | .eqrr _ _ _ => equalTo

/-- The result of an instruction; none where an operand names no register. -/
def result (i : Instr) (s : State) : Option Word :=
  (fieldValue s i.roleA i.A).bind fun a => (fieldValue s i.roleB i.B).map fun b => alu i a b

/-- Every meaning is one destination write of its result. -/
theorem exec_eq_writeDest (i : Instr) (s : State) :
    exec i s = writeDest i.C i.literalsOk (result i s) s := by
  cases i with
  | setr A B C =>
    cases h : regIndex A <;>
      simp [exec, execSetr, execOne, result, fieldValue, Instr.literalsOk, Instr.roleA, Instr.roleB,
        Instr.A, Instr.B, Instr.C, alu, Operand.value, Operand.inRange, fieldLiteralOk, h]
  | seti A B C =>
    simp [exec, execSeti, execOne, result, fieldValue, Instr.literalsOk, Instr.roleA, Instr.roleB,
      Instr.A, Instr.B, Instr.C, alu, Operand.value, Operand.inRange, fieldLiteralOk]
  | addr | addi | mulr | muli | banr | bani | borr | bori | gtir | gtri | gtrr | eqir | eqri | eqrr => rfl

theorem fieldValue_eq_none {s : State} {r : Role} {v : Int} :
    fieldValue s r v = none ↔ fieldIndexOk r v = false := by
  cases r <;> simp [fieldValue, fieldIndexOk, regIndex_eq_none]

theorem fieldValue_ok {s : State} {r : Role} {v : Int} (h : fieldIndexOk r v = true) :
    ∃ w, fieldValue s r v = some w := by
  cases e : fieldValue s r v with
  | some w => exact ⟨w, rfl⟩
  | none => rw [fieldValue_eq_none, h] at e; cases e

theorem regsOk_iff {i : Instr} : i.regsOk = true ↔
    indexOk i.C = true ∧ fieldIndexOk i.roleA i.A = true ∧ fieldIndexOk i.roleB i.B = true := by
  simp [Instr.regsOk, and_assoc]

theorem wf_iff {i : Instr} : WellFormed i ↔
    indexOk i.C = true ∧ fieldOk i.roleA i.A = true ∧ fieldOk i.roleB i.B = true := by
  simp [WellFormed, Instr.wf, Instr.wfDest, Instr.wfA, Instr.wfB, and_assoc]

/-- A well-formed instruction passes the index test. -/
theorem regsOk_of_wf {i : Instr} (h : WellFormed i) : i.regsOk = true := by
  obtain ⟨hc, ha, hb⟩ := wf_iff.1 h
  refine regsOk_iff.2 ⟨hc, ?_, ?_⟩
  · cases e : i.roleA <;> simp_all [fieldOk, fieldIndexOk]
  · cases e : i.roleB <;> simp_all [fieldOk, fieldIndexOk]

/-- A well-formed instruction has its literals in range. -/
theorem literalsOk_of_wf {i : Instr} (h : WellFormed i) : i.literalsOk = true := by
  obtain ⟨-, ha, hb⟩ := wf_iff.1 h
  simp only [Instr.literalsOk, Bool.and_eq_true]
  constructor
  · cases e : i.roleA <;> simp_all [fieldOk, fieldLiteralOk]
  · cases e : i.roleB <;> simp_all [fieldOk, fieldLiteralOk]

/-- The result exists exactly when both operand fields pass the index test. -/
theorem result_ok {i : Instr} {s : State} (ha : fieldIndexOk i.roleA i.A = true)
    (hb : fieldIndexOk i.roleB i.B = true) : ∃ a b, fieldValue s i.roleA i.A = some a ∧
      fieldValue s i.roleB i.B = some b ∧ result i s = some (alu i a b) := by
  obtain ⟨a, hA⟩ := fieldValue_ok (s := s) ha
  obtain ⟨b, hB⟩ := fieldValue_ok (s := s) hb
  exact ⟨a, b, hA, hB, by simp [result, hA, hB]⟩

/-- Execution with valid indices and literals: the result goes to `x[C]` and nothing else changes. -/
theorem exec_of_ok {i : Instr} (s : State) (hr : i.regsOk = true) (hl : i.literalsOk = true) :
    ∃ (c : Fin NREG) (a b : Word), i.C = (c.val : Int) ∧ fieldValue s i.roleA i.A = some a ∧
      fieldValue s i.roleB i.B = some b ∧ exec i s = .next (s.setX c (alu i a b)) := by
  obtain ⟨hc, ha, hb⟩ := regsOk_iff.1 hr
  obtain ⟨c, hC⟩ := exists_of_indexOk hc
  obtain ⟨a, b, hA, hB, hR⟩ := result_ok (s := s) ha hb
  exact ⟨c, a, b, hC, hA, hB, by simp [exec_eq_writeDest, hR, hC, hl, writeDest]⟩

/-- An index outside 0..5 raises REG_INDEX (60_exceptions.md R173). -/
theorem exec_of_bad_index {i : Instr} (s : State) (hr : i.regsOk = false) :
    exec i s = .next (raise .regIndex s) := by
  rw [exec_eq_writeDest]
  cases hC : regIndex i.C with
  | none => simp [writeDest, hC]
  | some c =>
    have hc : indexOk i.C = true := by
      cases e : indexOk i.C with
      | true => rfl
      | false => rw [← regIndex_eq_none, hC] at e; cases e
    have hn : result i s = none := by
      cases ha : fieldIndexOk i.roleA i.A with
      | false => simp [result, fieldValue_eq_none.2 ha]
      | true =>
        cases hb : fieldIndexOk i.roleB i.B with
        | false => simp [result, fieldValue_eq_none.2 hb]
        | true => rw [regsOk_iff.2 ⟨hc, ha, hb⟩] at hr; cases hr
    simp [writeDest, hC, hn]

/-- With valid indices an out-of-range literal is refused (log 12). -/
theorem exec_of_bad_literal {i : Instr} (s : State) (hr : i.regsOk = true)
    (hl : i.literalsOk = false) : exec i s = .refused .literalRange := by
  obtain ⟨hc, ha, hb⟩ := regsOk_iff.1 hr
  obtain ⟨c, hC⟩ := exists_of_indexOk hc
  obtain ⟨a, b, -, -, hR⟩ := result_ok (s := s) ha hb
  simp [exec_eq_writeDest, hR, hC, hl, writeDest]

/-- Everything the execute phase can do. -/
theorem exec_cases (i : Instr) (s : State) :
    (i.regsOk = true ∧ i.literalsOk = true ∧ ∃ (c : Fin NREG) (a b : Word), i.C = (c.val : Int) ∧
        fieldValue s i.roleA i.A = some a ∧ fieldValue s i.roleB i.B = some b ∧
        exec i s = .next (s.setX c (alu i a b))) ∨
      (i.regsOk = false ∧ exec i s = .next (raise .regIndex s)) ∨
      (i.regsOk = true ∧ i.literalsOk = false ∧ exec i s = .refused .literalRange) := by
  cases hr : i.regsOk with
  | false => exact .inr (.inl ⟨rfl, exec_of_bad_index s hr⟩)
  | true =>
    cases hl : i.literalsOk with
    | false => exact .inr (.inr ⟨rfl, rfl, exec_of_bad_literal s hr hl⟩)
    | true => exact .inl ⟨rfl, rfl, exec_of_ok s hr hl⟩

/-- If the execute phase answers a next state, either it wrote one register and nothing else, or it raised
REG_INDEX. -/
theorem exec_next_cases {i : Instr} {s t : State} (h : exec i s = .next t) :
    (∃ (c : Fin NREG) (v : Word), i.C = (c.val : Int) ∧ t = s.setX c v) ∨ t = raise .regIndex s := by
  obtain ⟨-, -, c, a, b, hC, -, -, e⟩ | ⟨-, e⟩ | ⟨-, -, e⟩ := exec_cases i s
  · rw [e] at h
    cases h
    exact .inl ⟨c, _, hC, rfl⟩
  · rw [e] at h
    cases h
    exact .inr rfl
  · rw [e] at h
    cases h

/-- A well-formed instruction writes its destination and nothing else. -/
theorem exec_of_wf {i : Instr} (s : State) (h : WellFormed i) :
    ∃ (c : Fin NREG) (v : Word), i.C = (c.val : Int) ∧ exec i s = .next (s.setX c v) := by
  obtain ⟨c, a, b, hC, -, -, e⟩ := exec_of_ok s (regsOk_of_wf h) (literalsOk_of_wf h)
  exact ⟨c, _, hC, e⟩

/-- The frame of a register write, in the words of the statements. -/
theorem onlyRegister_setX (s : State) (c : Fin NREG) (v : Word) :
    Safety.OnlyRegister c s (s.setX c v) :=
  ⟨fun _ hk => State.x_setX_of_ne s c v hk, ⟨rfl, rfl, rfl, rfl, rfl, rfl⟩, fun _ => rfl⟩

open Safety

@[simp] theorem regIndex_reg (k : Fin NREG) : regIndex (reg k) = some k := regIndex_val k

theorem reg_injective {j k : Fin NREG} (h : reg j = reg k) : j = k := by
  unfold reg at h
  exact Fin.ext (by omega)

/-- The index test in the words of the statements. -/
theorem namesRegisters_iff {i : Instr} : NamesRegisters i ↔ i.regsOk = true := by
  rw [regsOk_iff, indexOk_iff]
  unfold NamesRegisters
  cases i.roleA <;> cases i.roleB <;> simp [fieldIndexOk, indexOk_iff]

@[simp] theorem value_reg (s : State) (k : Fin NREG) :
    (Operand.reg (reg k)).value s = some (s.x k) := by
  simp [Operand.value]

@[simp] theorem value_lit (s : State) (v : Int) :
    (Operand.lit v).value s = some (BitVec.ofInt XLEN v) := rfl

theorem inRange_lit {v : Int} (h : IsLiteral v) : (Operand.lit v).inRange = true :=
  literalOk_iff.2 h

theorem isLiteral_toInt {v : Int} (h : IsLiteral v) : (BitVec.ofInt XLEN v).toInt = v :=
  literal_toInt h.1 h.2

/-- An opcode with two operands, both with a value and in range, writes its result. -/
theorem execTwo_next (f : Word → Word → Word) {a b : Operand} (c : Fin NREG) {s : State} {u v : Word}
    (ha : a.value s = some u) (hb : b.value s = some v) (h1 : a.inRange = true)
    (h2 : b.inRange = true) : execTwo f a b (reg c) s = .next (s.setX c (f u v)) := by
  simp [execTwo, ha, hb, h1, h2, writeDest]

/-- An opcode with the operand A alone writes it. -/
theorem execOne_next {a : Operand} (c : Fin NREG) {s : State} {u : Word} (ha : a.value s = some u)
    (h1 : a.inRange = true) : execOne a (reg c) s = .next (s.setX c u) := by
  simp [execOne, ha, h1, writeDest]

end Sys2Proof.Machine
end

