-- ==== Sys2Proof/Laws/Store.lean ====
section
/-! SUPPORT. The program store and the fetch (20_memory.md R40 to R44). -/

namespace Sys2Proof.Machine

/-- The fetch at a natural number is the slot at that position. -/
theorem fetch_natCast (s : State) (a : Nat) : fetch s a = (s.prog[a]?).map Slot.instr := by
  simp [fetch]

/-- The fetch has no instruction exactly outside `0 .. PLEN-1`. -/
theorem fetch_eq_none {s : State} {a : Int} : fetch s a = none ↔ a < 0 ∨ (s.plen : Int) ≤ a := by
  unfold fetch State.plen
  split
  · rw [Option.map_eq_none_iff, List.getElem?_eq_none_iff]
    omega
  · simp only [true_iff]
    omega

/-- A fetched instruction is that of a slot of the program, at an address below `PLEN`. -/
theorem fetch_eq_some {s : State} {a : Int} {i : Instr} (h : fetch s a = some i) :
    0 ≤ a ∧ a < s.plen ∧ ∃ c ∈ s.prog, c.instr = i := by
  unfold fetch at h
  split at h
  · obtain ⟨c, hc, hi⟩ := Option.map_eq_some_iff.1 h
    obtain ⟨hlt, rfl⟩ := List.getElem?_eq_some_iff.1 hc
    exact ⟨‹_›, by unfold State.plen; omega, _, List.getElem_mem hlt, hi⟩
  · cases h

/-- The fetch looks at the program store alone. -/
theorem fetch_congr {s t : State} (h : s.prog = t.prog) (a : Int) : fetch s a = fetch t a := by
  simp [fetch, h]

/-- `IPSEL` alone decides which register is the pointer. -/
theorem ip_congr {s t : State} (h : s.ipsel = t.ipsel) : s.ip = t.ip := by
  simp [State.ip, h]

theorem plen_congr {s t : State} (h : s.prog = t.prog) : s.plen = t.plen := by
  simp [State.plen, h]

end Sys2Proof.Machine
end

