-- ==== Sys2Proof/Laws/Cycle.lean ====
section
/-! SUPPORT. What one cycle and one step can do, said once. -/

namespace Sys2Proof.Machine

open Safety

/-- The end of a cycle whose instruction completed. -/
theorem finish_of_ne {p : Fin NREG} {t : State} (h : t.status ≠ .faulted) :
    finish p t = advance p t := by
  simp [finish, h]

/-- The end of a cycle whose instruction raised a fault. -/
theorem finish_of_faulted {p : Fin NREG} {t : State} (h : t.status = .faulted) : finish p t = t := by
  simp [finish, h]

@[simp] theorem finish_raise (p : Fin NREG) (c : Cause) (s : State) :
    finish p (raise c s) = raise c s := finish_of_faulted rfl

/-- A cycle with the pointer outside the program raises FETCH_RANGE. -/
theorem cycle_of_no_fetch {s : State} {p : Fin NREG} (hp : s.ip = some p)
    (hf : fetch s (s.x p).toInt = none) : cycle s = .next (raise .fetchRange s) := by
  simp [cycle, hp, hf]

/-- A cycle that fetches `i` is the execute phase of `i` and then the end of the cycle. -/
theorem cycle_of_fetch {s : State} {p : Fin NREG} {i : Instr} (hp : s.ip = some p)
    (hf : fetch s (s.x p).toInt = some i) :
    cycle s = mapNext (finish p) (exec i s) := by
  simp only [cycle, hp, hf]
  cases exec i s <;> rfl

/-- Everything one cycle can do, for a block in `RUNNING`. -/
theorem cycle_cases {s t : State} (hrun : s.status = .running) (h : cycle s = .next t) :
    ∃ p, s.ip = some p ∧
      ((fetch s (s.x p).toInt = none ∧ t = raise .fetchRange s) ∨
        ∃ i, fetch s (s.x p).toInt = some i ∧
          ((i.regsOk = false ∧ t = raise .regIndex s) ∨
            ∃ (c : Fin NREG) (v : Word), i.regsOk = true ∧ i.literalsOk = true ∧
              i.C = (c.val : Int) ∧ exec i s = .next (s.setX c v) ∧ t = advance p (s.setX c v))) := by
  cases hp : s.ip with
  | none => simp [cycle, hp] at h
  | some p =>
    refine ⟨p, rfl, ?_⟩
    cases hf : fetch s (s.x p).toInt with
    | none =>
      rw [cycle_of_no_fetch hp hf] at h
      cases h
      exact .inl ⟨rfl, rfl⟩
    | some i =>
      refine .inr ⟨i, rfl, ?_⟩
      rw [cycle_of_fetch hp hf] at h
      obtain ⟨hr, hl, c, a, b, hC, -, -, e⟩ | ⟨hr, e⟩ | ⟨-, -, e⟩ := exec_cases i s
      · rw [e] at h
        simp only [mapNext, Host.Outcome.next.injEq] at h
        rw [finish_of_ne (by simp [hrun])] at h
        exact .inr ⟨c, _, hr, hl, hC, e, h.symm⟩
      · rw [e] at h
        simp only [mapNext, finish_raise, Host.Outcome.next.injEq] at h
        exact .inl ⟨hr, h.symm⟩
      · rw [e] at h
        simp [mapNext] at h

/-- A step of a running block with no request waiting is a cycle. -/
theorem step_of_running {s : State} (h : s.status = .running) (hr : s.request = none) :
    step s = cycle s := by
  simp [step, h, hr]

/-- A step of a block that is not running, with no request waiting, changes nothing. -/
theorem step_of_not_running {s : State} (h : s.status ≠ .running) (hr : s.request = none) :
    step s = .next s := by
  cases e : s.status <;> simp_all [step]

theorem step_of_reset {s : State} (hr : s.request = some .reset) : step s = .next State.reset := by
  simp [step, hr, takeRequest, takeReset]

theorem step_of_launch {s : State} (hr : s.request = some .launch) :
    step s = .next (takeLaunch s) := by
  simp [step, hr, takeRequest]

/-- Everything one step can do. -/
theorem step_cases {s t : State} (h : step s = .next t) :
    (s.request = some .reset ∧ t = State.reset) ∨
      (s.request = some .launch ∧ t = takeLaunch s) ∨
      (s.request = none ∧ s.status ≠ .running ∧ t = s) ∨
      (s.request = none ∧ s.status = .running ∧ cycle s = .next t) := by
  cases hr : s.request with
  | some r =>
    cases r with
    | reset =>
      rw [step_of_reset hr] at h
      cases h
      exact .inl ⟨rfl, rfl⟩
    | launch =>
      rw [step_of_launch hr] at h
      cases h
      exact .inr (.inl ⟨rfl, rfl⟩)
  | none =>
    by_cases hs : s.status = .running
    · rw [step_of_running hs hr] at h
      exact .inr (.inr (.inr ⟨rfl, hs, h⟩))
    · rw [step_of_not_running hs hr] at h
      cases h
      exact .inr (.inr (.inl ⟨rfl, hs, rfl⟩))

/-- A block about to execute `i` runs exactly `i`. -/
theorem step_of_aboutToExecute {s : State} {p : Fin NREG} {a : Nat} {i : Instr}
    (h : AboutToExecute s p a i) : step s = mapNext (finish p) (exec i s) := by
  obtain ⟨hrun, hreq, hp, ha, hi⟩ := h
  rw [step_of_running hrun hreq]
  exact cycle_of_fetch hp (by rw [ha, fetch_natCast, hi])

/-- A block about to execute a well-formed instruction writes its destination and advances. -/
theorem step_of_wf {s : State} {p : Fin NREG} {a : Nat} {i : Instr}
    (h : AboutToExecute s p a i) (hw : WellFormed i) :
    ∃ (c : Fin NREG) (v : Word), i.C = (c.val : Int) ∧ exec i s = .next (s.setX c v) ∧
      step s = .next (advance p (s.setX c v)) := by
  obtain ⟨c, v, hC, e⟩ := exec_of_wf s hw
  refine ⟨c, v, hC, e, ?_⟩
  rw [step_of_aboutToExecute h, e]
  simp [mapNext, finish_of_ne, h.1]

/-- The address of the instruction about to execute is in the program. -/
theorem aboutToExecute_lt {s : State} {p : Fin NREG} {a : Nat} {i : Instr}
    (h : AboutToExecute s p a i) : a < s.plen := by
  obtain ⟨-, -, -, -, hi⟩ := h
  obtain ⟨c, hc, -⟩ := Option.map_eq_some_iff.1 hi
  exact (List.getElem?_eq_some_iff.1 hc).1

/-- A running block whose pointer is an address of the program is about to execute its instruction. -/
theorem aboutToExecute_of_fetch {s : State} {p : Fin NREG} {i : Instr} (hrun : s.status = .running)
    (hreq : s.request = none) (hp : s.ip = some p) (hf : fetch s (s.x p).toInt = some i) :
    AboutToExecute s p (s.x p).toInt.toNat i := by
  obtain ⟨h0, -, -⟩ := fetch_eq_some hf
  refine ⟨hrun, hreq, hp, by omega, ?_⟩
  rw [← fetch_natCast, Int.toNat_of_nonneg h0]
  exact hf

/-- A cycle writes neither the program nor the launch parameters, and sees no request. -/
theorem cycle_frame {s t : State} (h : cycle s = .next t) :
    t.prog = s.prog ∧ t.ipsel = s.ipsel ∧ t.ipselSet = s.ipselSet ∧ t.request = s.request := by
  cases hp : s.ip with
  | none => simp [cycle, hp] at h
  | some p =>
    cases hf : fetch s (s.x p).toInt with
    | none =>
      rw [cycle_of_no_fetch hp hf] at h
      cases h
      exact ⟨rfl, rfl, rfl, rfl⟩
    | some i =>
      rw [cycle_of_fetch hp hf] at h
      cases e : exec i s with
      | fault f => cases f
      | refused r => rw [e] at h; cases h
      | next u =>
        rw [e] at h
        simp only [mapNext, Host.Outcome.next.injEq] at h
        subst h
        obtain ⟨c, v, -, rfl⟩ | rfl := exec_next_cases e
        · unfold finish
          split <;> simp
        · simp

end Sys2Proof.Machine
end

