-- ==== Sys2Proof/Laws/HostPort.lean ====
section
/-! SUPPORT. The host's events and moves. -/

namespace Sys2Proof.Machine

open Safety

theorem allInstrs_iff {s : State} {ok : Instr → Bool} :
    s.allInstrs ok = true ↔ ∀ c ∈ s.prog, ok c.instr = true := by
  simp [State.allInstrs]

/-- The named checks are exactly those of a well-formed launch (30_encoding.md R69). -/
theorem paramProblem_eq_none {s : State} : s.paramProblem = none ↔ WellFormedLaunch s := by
  have hwf : (∀ c ∈ s.prog, WellFormed c.instr) ↔
      (∀ c ∈ s.prog, c.instr.wfDest = true) ∧ (∀ c ∈ s.prog, c.instr.wfA = true) ∧
        ∀ c ∈ s.prog, c.instr.wfB = true := by
    simp only [WellFormed, Instr.wf, Bool.and_eq_true]
    constructor
    · exact fun h => ⟨fun c hc => (h c hc).1.1, fun c hc => (h c hc).1.2, fun c hc => (h c hc).2⟩
    · exact fun h c hc => ⟨⟨h.1 c hc, h.2.1 c hc⟩, h.2.2 c hc⟩
  have hip : (∃ p, s.ip = some p) ↔ ¬ s.ip = none := by
    cases s.ip <;> simp
  unfold WellFormedLaunch
  rw [hwf, hip, ← allInstrs_iff, ← allInstrs_iff, ← allInstrs_iff]
  unfold State.paramProblem
  cases s.ipselSet <;> cases s.allInstrs Instr.wfDest <;> cases s.allInstrs Instr.wfA <;>
    cases s.allInstrs Instr.wfB <;> simp
  all_goals split_ifs <;> simp_all <;> omega

/-- The precondition of a launch (70_reset_and_hazards.md R193). -/
theorem launchProblem_eq_none {s : State} :
    s.launchProblem = none ↔ s.status = .idle ∧ WellFormedLaunch s := by
  unfold State.launchProblem
  split <;> simp [*, paramProblem_eq_none]

theorem takeLaunch_of_ok {s : State} (h : s.status = .idle) (hw : WellFormedLaunch s) :
    takeLaunch s = { s with status := .running, request := none } := by
  simp [takeLaunch, launchProblem_eq_none.2 ⟨h, hw⟩]

theorem takeLaunch_of_problem {s : State} (h : ¬ (s.status = .idle ∧ WellFormedLaunch s)) :
    takeLaunch s = { s with request := none } := by
  unfold takeLaunch
  split
  · exact absurd (launchProblem_eq_none.1 ‹_›) h
  · rfl

/-- Everything taking a launch can do. -/
theorem takeLaunch_cases (s : State) :
    (s.status = .idle ∧ WellFormedLaunch s ∧
        takeLaunch s = { s with status := .running, request := none }) ∨
      (¬ (s.status = .idle ∧ WellFormedLaunch s) ∧ takeLaunch s = { s with request := none }) := by
  by_cases h : s.status = .idle ∧ WellFormedLaunch s
  · exact .inl ⟨h.1, h.2, takeLaunch_of_ok h.1 h.2⟩
  · exact .inr ⟨h, takeLaunch_of_problem h⟩

/-- Everything a move of the host can do. -/
theorem hostMove_cases {m : HostMove} {s t : State} (h : hostMove m s = some t) :
    (m = .request .reset ∧ t = { s with request := some .reset }) ∨
      (s.status = .idle ∧ s.request = none ∧
        ((∃ v : Int, m = .setIpsel v ∧ s.ipselSet = false ∧ 0 ≤ v ∧ v ≤ 7 ∧
            t = { s with ipsel := BitVec.ofInt 3 v, ipselSet := true }) ∨
          (∃ p, m = .load p ∧ t = { s with prog := p }) ∨
          (m = .request .launch ∧ t = { s with request := some .launch }))) := by
  cases m with
  | setIpsel v =>
    simp only [hostMove] at h
    split at h
    · cases h
      obtain ⟨h1, h2, h3, h4, h5⟩ := ‹_ ∧ _›
      exact .inr ⟨h1, h2, .inl ⟨v, rfl, h3, h4, h5, rfl⟩⟩
    · cases h
  | load p =>
    simp only [hostMove] at h
    split at h
    · cases h
      obtain ⟨h1, h2⟩ := ‹_ ∧ _›
      exact .inr ⟨h1, h2, .inr (.inl ⟨p, rfl, rfl⟩)⟩
    · cases h
  | request r =>
    cases r with
    | reset =>
      cases h
      exact .inl ⟨rfl, rfl⟩
    | launch =>
      simp only [hostMove] at h
      split at h
      · cases h
        obtain ⟨h1, h2⟩ := ‹_ ∧ _›
        exact .inr ⟨h1, h2, .inr (.inr ⟨rfl, rfl⟩)⟩
      · cases h

/-- The pointer register of a 3-bit selection. -/
theorem ip_eq_some {s : State} {p : Fin NREG} : s.ip = some p ↔ s.ipsel.toNat = p.val := by
  unfold State.ip
  split
  · rw [Option.some.injEq, Fin.ext_iff]
  · have := p.isLt
    simp only [reduceCtorEq, false_iff]
    omega

end Sys2Proof.Machine
end

