-- ==== Sys2Proof/Laws/PerInstr.lean ====
section
/-! SUPPORT. Facts about the instruction as syntax, one lemma per constructor. Family `Rebuilds`: an
instruction is the row its opcode number names, with its own three fields (30_encoding.md R63). -/

namespace Sys2Proof.Laws.Rebuilds

/-- The instruction is rebuilt from its opcode number and its fields. -/
def Statement (i : Instr) : Prop := Instr.ofOpnum i.opnum i.A i.B i.C = i

theorem addr (A B C : Int) : Statement (.addr A B C) := rfl
theorem addi (A B C : Int) : Statement (.addi A B C) := rfl
theorem mulr (A B C : Int) : Statement (.mulr A B C) := rfl
theorem muli (A B C : Int) : Statement (.muli A B C) := rfl
theorem banr (A B C : Int) : Statement (.banr A B C) := rfl
theorem bani (A B C : Int) : Statement (.bani A B C) := rfl
theorem borr (A B C : Int) : Statement (.borr A B C) := rfl
theorem bori (A B C : Int) : Statement (.bori A B C) := rfl
theorem setr (A B C : Int) : Statement (.setr A B C) := rfl
theorem seti (A B C : Int) : Statement (.seti A B C) := rfl
theorem gtir (A B C : Int) : Statement (.gtir A B C) := rfl
theorem gtri (A B C : Int) : Statement (.gtri A B C) := rfl
theorem gtrr (A B C : Int) : Statement (.gtrr A B C) := rfl
theorem eqir (A B C : Int) : Statement (.eqir A B C) := rfl
theorem eqri (A B C : Int) : Statement (.eqri A B C) := rfl
theorem eqrr (A B C : Int) : Statement (.eqrr A B C) := rfl

/-- All sixteen. -/
theorem all (i : Instr) : Statement i := by
  cases i <;> rfl

end Sys2Proof.Laws.Rebuilds

namespace Sys2Proof

/-- The row of a number has that number. -/
theorem opnum_ofOpnum (n : Fin NOPS) (A B C : Int) : (Instr.ofOpnum n A B C).opnum = n := by
  fin_cases n <;> rfl

/-- A row keeps its three fields. -/
theorem fields_ofOpnum (n : Fin NOPS) (A B C : Int) : (Instr.ofOpnum n A B C).A = A ∧
    (Instr.ofOpnum n A B C).B = B ∧ (Instr.ofOpnum n A B C).C = C := by
  fin_cases n <;> exact ⟨rfl, rfl, rfl⟩

/-- An instruction is given by its opcode number and its fields. -/
theorem eq_of_fields {i j : Instr} (h : i.opnum.val = j.opnum.val) (hA : i.A = j.A)
    (hB : i.B = j.B) (hC : i.C = j.C) : i = j := by
  rw [← Laws.Rebuilds.all i, ← Laws.Rebuilds.all j, Fin.ext h, hA, hB, hC]

end Sys2Proof
end

