-- ==== Sys2Proof/Laws/Decode.lean ====
section
/-! SUPPORT. The fields of an instruction word as numbers (30_encoding.md R61, R62, R77). -/

namespace Sys2Proof

open Safety Machine

theorem opField_toNat (W : InstrWord) : (opField W).toNat = W.toNat % 2 ^ 4 := by
  simp [opField]

theorem cField_toNat (W : InstrWord) : (cField W).toNat = W.toNat / 2 ^ 4 % 2 ^ 3 := by
  simp [cField, Nat.shiftRight_eq_div_pow]

theorem aField_toNat (W : InstrWord) : (aField W).toNat = W.toNat / 2 ^ 7 % 2 ^ XLEN := by
  simp [aField, Nat.shiftRight_eq_div_pow]

theorem bField_toNat (W : InstrWord) :
    (bField W).toNat = W.toNat / 2 ^ (XLEN + 7) % 2 ^ XLEN := by
  simp [bField, Nat.shiftRight_eq_div_pow]

/-- A word is the sum of its four fields, each at its place. -/
theorem word_eq_fields (W : InstrWord) : W.toNat = (opField W).toNat + (cField W).toNat * 2 ^ 4 +
    (aField W).toNat * 2 ^ 7 + (bField W).toNat * 2 ^ (XLEN + 7) := by
  have hlt : W.toNat / 2 ^ (XLEN + 7) < 2 ^ XLEN := by
    rw [Nat.div_lt_iff_lt_mul (by positivity), ← pow_add]
    have h := W.isLt
    have e : XLEN + (XLEN + 7) = IW := by simp only [IW]; omega
    rwa [e]
  rw [opField_toNat, cField_toNat, aField_toNat, bField_toNat, Nat.mod_eq_of_lt hlt]
  have hb : W.toNat / 2 ^ (XLEN + 7) = W.toNat / 2 ^ 7 / 2 ^ XLEN := by
    rw [Nat.div_div_eq_div_mul, ← pow_add, Nat.add_comm XLEN 7]
  have d := Nat.div_add_mod (W.toNat / 2 ^ 7) (2 ^ XLEN)
  rw [hb, pow_add 2 XLEN 7, ← Nat.mul_assoc, Nat.mul_comm _ (2 ^ XLEN)]
  generalize 2 ^ XLEN * (W.toNat / 2 ^ 7 / 2 ^ XLEN) = q at *
  generalize W.toNat / 2 ^ 7 % 2 ^ XLEN = am at *
  omega

/-- Fields at their places are read back. -/
theorem fields_of_sum {op c a b : Nat} (hop : op < 2 ^ 4) (hc : c < 2 ^ 3) (ha : a < 2 ^ XLEN)
    (hb : b < 2 ^ XLEN) :
    let W : InstrWord := BitVec.ofNat IW (op + c * 2 ^ 4 + a * 2 ^ 7 + b * 2 ^ (XLEN + 7))
    (opField W).toNat = op ∧ (cField W).toNat = c ∧ (aField W).toNat = a ∧ (bField W).toNat = b := by
  intro W
  have p : (2 : Nat) ^ (XLEN + 7) = 2 ^ 7 * 2 ^ XLEN := by rw [pow_add, Nat.mul_comm]
  have hpos : 0 < 2 ^ XLEN := by positivity
  have hW : W.toNat = op + c * 2 ^ 4 + a * 2 ^ 7 + b * 2 ^ (XLEN + 7) := by
    have hIW : (2 : Nat) ^ IW = 2 ^ 7 * (2 ^ XLEN * 2 ^ XLEN) := by
      rw [← pow_add, ← pow_add, IW, Nat.two_mul]
    simp only [W, BitVec.toNat_ofNat]
    apply Nat.mod_eq_of_lt
    rw [hIW, p]
    have h1 : 2 ^ XLEN * b + 2 ^ XLEN ≤ 2 ^ XLEN * 2 ^ XLEN := by
      rw [← Nat.mul_succ]
      exact Nat.mul_le_mul_left _ hb
    rw [show b * (2 ^ 7 * 2 ^ XLEN) = 2 ^ 7 * (2 ^ XLEN * b) by ring]
    generalize 2 ^ XLEN * b = q at *
    generalize 2 ^ XLEN * 2 ^ XLEN = r at *
    omega
  have ha7 : W.toNat / 2 ^ 7 = a + 2 ^ XLEN * b := by
    rw [hW, p, show b * (2 ^ 7 * 2 ^ XLEN) = 2 ^ 7 * (2 ^ XLEN * b) by ring]
    generalize 2 ^ XLEN * b = q
    omega
  refine ⟨?_, ?_, ?_, ?_⟩
  · rw [opField_toNat, hW, p, show b * (2 ^ 7 * 2 ^ XLEN) = 2 ^ 7 * (2 ^ XLEN * b) by ring]
    generalize 2 ^ XLEN * b = q
    omega
  · rw [cField_toNat, hW, p, show b * (2 ^ 7 * 2 ^ XLEN) = 2 ^ 7 * (2 ^ XLEN * b) by ring]
    generalize 2 ^ XLEN * b = q
    omega
  · rw [aField_toNat, ha7, Nat.add_mul_mod_self_left, Nat.mod_eq_of_lt ha]
  · rw [bField_toNat, p, ← Nat.div_div_eq_div_mul, ha7, Nat.add_mul_div_left _ _ hpos,
      Nat.div_eq_of_lt ha, Nat.zero_add, Nat.mod_eq_of_lt hb]

theorem patternNat_lt (v : Int) : patternNat v < 2 ^ XLEN := by
  have h := Int.emod_lt_of_pos v (b := 2 ^ XLEN) (by positivity)
  have h0 := Int.emod_nonneg v (b := 2 ^ XLEN) (by positivity)
  have : ((v % 2 ^ XLEN).toNat : Int) < ((2 ^ XLEN : Nat) : Int) := by
    rw [Int.toNat_of_nonneg h0]
    push_cast
    exact h
  exact_mod_cast this

/-- The pattern of a register value is the number of its bits. -/
theorem patternNat_toInt (v : Word) : patternNat v.toInt = v.toNat := by
  have h : v.toInt % 2 ^ XLEN = (v.toNat : Int) := by
    have hlt : (v.toNat : Int) < ((2 ^ XLEN : Nat) : Int) := by exact_mod_cast v.isLt
    have e := Int.bmod_emod (x := (v.toNat : Int)) (m := 2 ^ XLEN)
    rw [← BitVec.toInt_eq_toNat_bmod, Int.emod_eq_of_lt (by positivity) hlt] at e
    exact_mod_cast e
  simp [patternNat, h]

/-- The pattern of a number in range, read as two's complement, is the number. -/
theorem ofNat_patternNat (v : Int) : BitVec.ofNat XLEN (patternNat v) = BitVec.ofInt XLEN v := by
  apply BitVec.eq_of_toNat_eq
  rw [BitVec.toNat_ofNat, Nat.mod_eq_of_lt (patternNat_lt v), BitVec.toNat_ofInt, patternNat]
  push_cast
  rfl

/-- The four fields of a decoded word. -/
theorem decode_fields (W : InstrWord) : (decode W).opnum.val = (opField W).toNat ∧
    (decode W).A = (aField W).toInt ∧ (decode W).B = (bField W).toInt ∧
    (decode W).C = ((cField W).toNat : Int) := by
  obtain ⟨hA, hB, hC⟩ :=
    fields_ofOpnum (opNumber W) (aField W).toInt (bField W).toInt (cField W).toNat
  refine ⟨?_, hA, hB, hC⟩
  unfold decode
  rw [opnum_ofOpnum]
  rfl

/-- The four fields of an encoded tuple whose destination is a register. -/
theorem encode_fields {i : Instr} (h : indexOk i.C = true) :
    (opField (encode i)).toNat = i.opnum.val ∧ ((cField (encode i)).toNat : Int) = i.C ∧
      aField (encode i) = BitVec.ofInt XLEN i.A ∧ bField (encode i) = BitVec.ofInt XLEN i.B := by
  have hc := indexOk_iff.1 h
  obtain ⟨h1, h2, h3, h4⟩ := fields_of_sum (op := i.opnum.val) (c := i.C.toNat)
    i.opnum.isLt (by omega) (patternNat_lt i.A) (patternNat_lt i.B)
  refine ⟨h1, ?_, ?_, ?_⟩
  · unfold encode
    rw [h2]
    omega
  · rw [← ofNat_patternNat, ← h3, BitVec.ofNat_toNat, BitVec.setWidth_eq]
    rfl
  · rw [← ofNat_patternNat, ← h4, BitVec.ofNat_toNat, BitVec.setWidth_eq]
    rfl

end Sys2Proof
end

