-- ==== Sys2Proof/Laws/Run.lean ====
section
/-! SUPPORT. Runs of several steps, and the invariant by status. -/

namespace Sys2Proof.Machine

open Safety

@[simp] theorem run_zero (s : State) : run 0 s = .next s := rfl

/-- One more step at the start of a run. -/
theorem run_succ {s t : State} (h : step s = .next t) (k : Nat) : run (k + 1) s = run k t := by
  simp only [run, Host.Core.run]
  rw [show core.step s = .next t from h]

/-- A run of `n` steps and then of `k` more. -/
theorem run_add {s t : State} {n : Nat} (h : run n s = .next t) (k : Nat) :
    run (n + k) s = run k t := by
  induction n generalizing s with
  | zero =>
    cases h
    rw [Nat.zero_add]
  | succ n ih =>
    cases e : step s with
    | next u =>
      rw [run_succ e] at h
      rw [Nat.add_right_comm, run_succ e]
      exact ih h
    | fault f => cases f
    | refused r =>
      simp only [run, Host.Core.run] at h
      rw [show core.step s = .refused r from e] at h
      cases h

/-- One more step at the end of a run. -/
theorem run_snoc {s t u : State} {n : Nat} (h : run n s = .next t) (hs : step t = .next u) :
    run (n + 1) s = .next u := by
  rw [run_add h 1, run_succ hs, run_zero]

theorem runInv_idle {s : State} (h : s.status = .idle) :
    RunInv s ↔ s.cause = .none ∧ ∀ k, s.x k = 0 := by
  unfold RunInv
  rw [h]

theorem runInv_running {s : State} (h : s.status = .running) :
    RunInv s ↔ s.cause = .none ∧ WellFormedLaunch s ∧ Pointer s (· < s.plen) := by
  unfold RunInv
  rw [h]

theorem runInv_halted {s : State} (h : s.status = .halted) :
    RunInv s ↔ s.cause = .none ∧ WellFormedLaunch s ∧ Pointer s ((s.plen : Int) ≤ ·) := by
  unfold RunInv
  rw [h]

theorem runInv_faulted {s : State} (h : s.status = .faulted) :
    RunInv s ↔ s.cause = .fetchRange ∧ WellFormedLaunch s ∧ Pointer s (· < 0) := by
  unfold RunInv
  rw [h]

/-- The invariant does not depend on a waiting request. -/
theorem runInv_request {s : State} (r : Option Request) (h : RunInv s) :
    RunInv { s with request := r } := h

/-- A well-formed launch depends on the launch parameters alone. -/
theorem wellFormedLaunch_congr {s t : State} (h1 : t.prog = s.prog) (h2 : t.ipsel = s.ipsel)
    (h3 : t.ipselSet = s.ipselSet) (h : WellFormedLaunch s) : WellFormedLaunch t := by
  unfold WellFormedLaunch at *
  rw [h1, h3, ip_congr h2, plen_congr h1]
  exact h

@[simp] theorem reset_x (k : Fin NREG) : State.reset.x k = 0 := by
  simp [State.x, State.reset]

end Sys2Proof.Machine
end

