-- ==== Sys2Proof/Laws/TextForm.lean ====
section
/-! SUPPORT. What an accepted text, directive line or instruction line is. -/

namespace Sys2Proof.Machine

/-- An accepted directive line is `#ip` and one digit, 0 to 5 (30_encoding.md R73). -/
theorem directiveLine_cases {line : List Char} {d : Nat} (h : directiveLine line = .ok d) :
    d ≤ 5 ∧ ∃ c, fields line = [directiveWord, [c]] ∧ digit c = some d := by
  unfold directiveLine at h
  split at h
  · cases h
  · rename_i w rest hf
    split at h
    · cases h
    · rename_i hw
      split at h
      · rename_i c
        split at h
        · split at h
          · cases h
            exact ⟨‹_›, c, by rw [hf, not_not.1 hw], ‹_›⟩
          · cases h
        · cases h
      · cases h

/-- An accepted instruction line is a mnemonic and three integers, A, B and C in this order (R72). -/
theorem instrLine_cases {line : List Char} {i : Instr} (h : instrLine line = .ok i) :
    ∃ m a b c make, fields line = [m, a, b, c] ∧ mnemonic m = some make ∧ operand a = some i.A ∧
      operand b = some i.B ∧ operand c = some i.C ∧ make i.A i.B i.C = i := by
  unfold instrLine at h
  split at h
  · cases h
  · rename_i m ops he
    split at h
    · cases h
    · split at h
      · cases h
      · rename_i make hm
        split at h
        · rename_i a b c ho
          rcases ops with _ | ⟨x, _ | ⟨y, _ | ⟨z, _ | _⟩⟩⟩ <;>
            simp only [List.map_cons, List.map_nil, List.cons.injEq, reduceCtorEq, and_false,
              and_true] at ho
          obtain ⟨ha, hb, hc⟩ := ho
          injection h with h
          subst h
          have hf : (make a b c).A = a ∧ (make a b c).B = b ∧ (make a b c).C = c := by
            unfold mnemonic at hm
            split at hm <;> first | (cases hm; exact ⟨rfl, rfl, rfl⟩) | cases hm
          refine ⟨m, x, y, z, make, he, hm, ?_⟩
          rw [hf.1, hf.2.1, hf.2.2]
          exact ⟨ha, hb, hc, rfl⟩
        · cases h

/-- The lines of an accepted program, one instruction each. -/
theorem instrLines_cases {lines : List (List Char)} {p : List Instr} (h : instrLines lines = .ok p) :
    lines.length = p.length ∧ ∀ (k : Nat) (l : List Char), lines[k]? = some l →
      ∃ i, instrLine l = .ok i ∧ p[k]? = some i := by
  induction lines generalizing p with
  | nil => cases h; simp
  | cons l ls ih =>
    simp only [instrLines] at h
    split at h
    · cases h
    · split at h
      · cases h
      · cases h
        obtain ⟨hl, hk⟩ := ih ‹_›
        refine ⟨by simp [hl], fun k l' h' => ?_⟩
        cases k with
        | zero => cases h'; exact ⟨_, ‹_›, rfl⟩
        | succ k => exact hk k l' h'

/-- An accepted text is a directive line and the instruction lines (R73, R76). -/
theorem parseText_cases {text : List Char} {d : Nat} {p : List Instr}
    (h : parseText text = .ok (d, p)) : ∃ first rest, splitAt '\n' text = first :: rest ∧
      directiveLine first = .ok d ∧ instrLines rest = .ok p := by
  unfold parseText at h
  split at h
  · cases h
  · split at h
    · cases h
    · split at h
      · cases h
      · cases h
        exact ⟨_, _, ‹_›, ‹_›, ‹_›⟩

end Sys2Proof.Machine
end

