-- ==== Sys2Proof/Tests/Slice0.lean ====
section
/-! SUPPORT. The model's own tests. Every expected value is a row of spec/95_test_vectors.md (tables V1 to
V10) or of spec/96_test_programs.md, at XLEN = 64; then, for every statement with hypotheses, a state and
operands that meet them. -/

namespace Sys2Proof.Tests

open Machine Safety

/-- A running block with `IPSEL` = 5, the program given and the six register values given. -/
def block (prog : List Slot) (r : Vector Int 6) : State where
  regs := #v[.ofInt XLEN r[0], .ofInt XLEN r[1], .ofInt XLEN r[2], .ofInt XLEN r[3],
    .ofInt XLEN r[4], .ofInt XLEN r[5]]
  status := .running
  cause := .none
  ipsel := 5
  ipselSet := true
  prog := prog
  request := none

/-- The tables V1 to V7: `PLEN` = 1. -/
def one (i : Instr) (r : Vector Int 6) : State := block [.tuple i] r

/-- The tables V8: the instruction at every one of `n` addresses. -/
def many (n : Nat) (i : Instr) (r : Vector Int 6) : State := block (List.replicate n (.tuple i)) r

/-- The step goes on to the register values, the status and the cause. -/
def goesTo (s : State) (r : Vector Int 6) (st : Status) (c : Cause := .none) : Bool :=
  match step s with
  | .next t => decide (t.values = r ∧ t.status = st ∧ t.cause = c)
  | .fault _ => false
  | .refused _ => false

/-! ### WellFormed refuses an ill-formed term for each check (30_encoding.md R69) -/

theorem test_wf_dest_refuses_6 : (Instr.seti 6 6 6).wfDest = false := by decide
theorem test_wf_dest_refuses_8 : (Instr.eqrr 1 2 8).wfDest = false := by decide
theorem test_wf_A_refuses_bad_index : (Instr.addr (-1) 0 0).wfA = false := by decide
theorem test_wf_A_refuses_big_literal : (Instr.seti 9223372036854775808 0 0).wfA = false := by decide
theorem test_wf_B_refuses_bad_index : (Instr.gtir 6 6 0).wfB = false := by decide
theorem test_wf_B_refuses_big_ignored : (Instr.setr 1 (-9223372036854775809) 0).wfB = false := by decide
theorem test_wf_accepts_literal_7 : WellFormed (.seti 7 99 5) := by decide
theorem test_wf_accepts_literal_B_6 : WellFormed (.addi 1 6 2) := by decide

/-! ### Launch checks (V9, "Refusals at launch") -/

/-- A block in `IDLE` with the launch parameters given. -/
def parked (ipsel : BitVec 3) (prog : List Slot) : State :=
  { State.reset with ipsel := ipsel, ipselSet := true, prog := prog }

theorem test_launch_refused_ipsel_6 :
    (parked 6 [.tuple (.seti 0 0 0)]).launchProblem = some .ipselRange := by decide
theorem test_launch_refused_ipsel_unset :
    (State.reset).launchProblem = some .ipselUnset := by decide
theorem test_launch_refused_empty : (parked 5 []).launchProblem = some .empty := by decide
theorem test_launch_refused_too_long (p : List Slot) (h : PLEN_MAX < p.length) :
    (parked 5 p).launchProblem = some .tooLong := by
  have hp : PLEN_MAX < (parked 5 p).plen := h
  have hip : (parked 5 p).ip = some 5 := rfl
  have hl : (parked 5 p).launchProblem = (parked 5 p).paramProblem := if_pos rfl
  rw [hl]
  unfold State.paramProblem
  rw [hip, if_neg (by simp [parked]), if_neg (by simp), if_neg (by omega), if_pos hp]
theorem test_launch_refused_dest :
    (parked 5 [.tuple (.seti 6 6 7)]).launchProblem = some .dest := by decide
theorem test_launch_refused_operandA :
    (parked 5 [.tuple (.setr 6 0 1)]).launchProblem = some .operandA := by decide
theorem test_launch_refused_operandB :
    (parked 5 [.tuple (.addr 1 6 2)]).launchProblem = some .operandB := by decide
theorem test_launch_accepted : (parked 5 [.tuple (.addr 1 5 2)]).launchProblem = none := by decide

/-! ### Decoding: a word written out for every opcode (V10) -/
theorem test_word_addr : decode (BitVec.ofNat IW 0x00000000000000010000000000000000B0) = .addr 1 2 3 ∧
    encode (.addr 1 2 3) = BitVec.ofNat IW 0x00000000000000010000000000000000B0 := by decide
theorem test_word_addi : decode (BitVec.ofNat IW 0x0000000000000000800000000000000001) = .addi 0 1 0 ∧
    encode (.addi 0 1 0) = BitVec.ofNat IW 0x0000000000000000800000000000000001 := by decide
theorem test_word_mulr : decode (BitVec.ofNat IW 0x0000000000000002000000000000000242) = .mulr 4 4 4 ∧
    encode (.mulr 4 4 4) = BitVec.ofNat IW 0x0000000000000002000000000000000242 := by decide
theorem test_word_muli : decode (BitVec.ofNat IW 0x7FFFFFFFFFFFFFFF000000000000000143) = .muli 2 (-2) 4 ∧
    encode (.muli 2 (-2) 4) = BitVec.ofNat IW 0x7FFFFFFFFFFFFFFF000000000000000143 := by decide
theorem test_word_banr : decode (BitVec.ofNat IW 0x0000000000000001000000000000000254) = .banr 4 2 5 ∧
    encode (.banr 4 2 5) = BitVec.ofNat IW 0x0000000000000001000000000000000254 := by decide
theorem test_word_bani : decode (BitVec.ofNat IW 0x000000000000007F8000000000000000A5) = .bani 1 255 2 ∧
    encode (.bani 1 255 2) = BitVec.ofNat IW 0x000000000000007F8000000000000000A5 := by decide
theorem test_word_borr : decode (BitVec.ofNat IW 0x00000000000000010000000000000000B6) = .borr 1 2 3 ∧
    encode (.borr 1 2 3) = BitVec.ofNat IW 0x00000000000000010000000000000000B6 := by decide
theorem test_word_bori : decode (BitVec.ofNat IW 0x0000000000000080000000000000000127) = .bori 2 256 2 ∧
    encode (.bori 2 256 2) = BitVec.ofNat IW 0x0000000000000080000000000000000127 := by decide
theorem test_word_setr : decode (BitVec.ofNat IW 0x0000000000000000000000000000000088) = .setr 1 0 0 ∧
    encode (.setr 1 0 0) = BitVec.ofNat IW 0x0000000000000000000000000000000088 := by decide
theorem test_word_seti : decode (BitVec.ofNat IW 0x0000000000000000000000000000000299) = .seti 5 0 1 ∧
    encode (.seti 5 0 1) = BitVec.ofNat IW 0x0000000000000000000000000000000299 := by decide
theorem test_word_gtir : decode (BitVec.ofNat IW 0x000000000000000200000000000000001A) = .gtir 0 4 1 ∧
    encode (.gtir 0 4 1) = BitVec.ofNat IW 0x000000000000000200000000000000001A := by decide
theorem test_word_gtri : decode (BitVec.ofNat IW 0x00000000000000000000000000000000BB) = .gtri 1 0 3 ∧
    encode (.gtri 1 0 3) = BitVec.ofNat IW 0x00000000000000000000000000000000BB := by decide
theorem test_word_gtrr : decode (BitVec.ofNat IW 0x000000000000000100000000000000008C) = .gtrr 1 2 0 ∧
    encode (.gtrr 1 2 0) = BitVec.ofNat IW 0x000000000000000100000000000000008C := by decide
theorem test_word_eqir : decode (BitVec.ofNat IW 0x000000000000000100000000000000034D) = .eqir 6 2 4 ∧
    encode (.eqir 6 2 4) = BitVec.ofNat IW 0x000000000000000100000000000000034D := by decide
theorem test_word_eqri : decode (BitVec.ofNat IW 0x7FFFFFFFFFFFFFFF8000000000000000AE) = .eqri 1 (-1) 2 ∧
    encode (.eqri 1 (-1) 2) = BitVec.ofNat IW 0x7FFFFFFFFFFFFFFF8000000000000000AE := by decide
theorem test_word_eqrr : decode (BitVec.ofNat IW 0x000000000000000100000000000000028F) = .eqrr 5 2 0 ∧
    encode (.eqrr 5 2 0) = BitVec.ofNat IW 0x000000000000000100000000000000028F := by decide
theorem test_decode_min_literal :
    decode (BitVec.ofNat IW 0x0000000000000000400000000000000059) = .seti (-9223372036854775808) 0 5 := by
  decide
theorem test_decode_reserved_destination :
    decode (BitVec.ofNat IW 0x0000000000000000000000000000000079) = .seti 0 0 7 := by decide
theorem test_decode_rejects_bit_135 : decodeTableWord 136 (2 ^ 135) = none := by decide
theorem test_every_table_row_decodes :
    ∀ n : Fin NOPS, decodeTableWord 8 n.val = some (Instr.ofOpnum n 0 0 0) := by decide

/-- The row's instruction runs as the first after reset. -/
def firstStep (w : Nat) : Bool :=
  match step (State.reset.withFetchWord 8 w) with
  | .next t => decide (t.status ≠ .faulted)
  | .fault _ => false
  | .refused _ => false

theorem test_every_table_row_runs_after_reset : ∀ n : Fin NOPS, firstStep n.val = true := by decide

/-! ### One cycle of every opcode: tables V1 to V7 -/

theorem test_addr_wraps :
    goesTo (one (.addr 1 2 3) #v[0, 9223372036854775807, 1, 0, 0, 0]) #v[0, 9223372036854775807, 1, -9223372036854775808, 0, 1] .halted = true := by decide
theorem test_addr_doubles :
    goesTo (one (.addr 1 1 1) #v[0, 7, 0, 0, 0, 0]) #v[0, 14, 0, 0, 0, 1] .halted = true := by decide
theorem test_addi_negative :
    goesTo (one (.addi 1 (-1) 1) #v[0, 5, 0, 0, 0, 0]) #v[0, 4, 0, 0, 0, 1] .halted = true := by decide
theorem test_addi_literal_7 :
    goesTo (one (.addi 0 7 0) #v[10, 0, 0, 0, 0, 0]) #v[17, 0, 0, 0, 0, 1] .halted = true := by decide
theorem test_mulr_wraps :
    goesTo (one (.mulr 1 2 3) #v[0, 3037000500, 3037000500, 0, 0, 0]) #v[0, 3037000500, 3037000500, -9223372036709301616, 0, 1] .halted = true := by decide
theorem test_mulr_signs :
    goesTo (one (.mulr 1 2 3) #v[0, -3, 5, 0, 0, 0]) #v[0, -3, 5, -15, 0, 1] .halted = true := by decide
theorem test_muli_negatives :
    goesTo (one (.muli 1 (-2) 2) #v[0, -3, 0, 0, 0, 0]) #v[0, -3, 6, 0, 0, 1] .halted = true := by decide
theorem test_muli_wraps :
    goesTo (one (.muli 1 2 1) #v[0, 9223372036854775807, 0, 0, 0, 0]) #v[0, -2, 0, 0, 0, 1] .halted = true := by decide
theorem test_banr_negative :
    goesTo (one (.banr 1 2 3) #v[0, -6, -4, 0, 0, 0]) #v[0, -6, -4, -8, 0, 1] .halted = true := by decide
theorem test_banr_bits :
    goesTo (one (.banr 1 2 3) #v[0, 12, 10, 0, 0, 0]) #v[0, 12, 10, 8, 0, 1] .halted = true := by decide
theorem test_bani_negative_mask :
    goesTo (one (.bani 1 (-256) 1) #v[0, 1023, 0, 0, 0, 0]) #v[0, 768, 0, 0, 0, 1] .halted = true := by decide
theorem test_bani_mod_16 :
    goesTo (one (.bani 1 15 1) #v[0, -3, 0, 0, 0, 0]) #v[0, 13, 0, 0, 0, 1] .halted = true := by decide
theorem test_borr_complements :
    goesTo (one (.borr 1 2 3) #v[0, -256, 255, 0, 0, 0]) #v[0, -256, 255, -1, 0, 1] .halted = true := by decide
theorem test_borr_bits :
    goesTo (one (.borr 1 2 3) #v[0, 12, 10, 0, 0, 0]) #v[0, 12, 10, 14, 0, 1] .halted = true := by decide
theorem test_bori_negative :
    goesTo (one (.bori 1 1 1) #v[0, -6, 0, 0, 0, 0]) #v[0, -5, 0, 0, 0, 1] .halted = true := by decide
theorem test_bori_bit_8 :
    goesTo (one (.bori 1 256 1) #v[0, 255, 0, 0, 0, 0]) #v[0, 511, 0, 0, 0, 1] .halted = true := by decide
theorem test_setr_ignored_B :
    goesTo (one (.setr 1 99 2) #v[0, -4, 0, 0, 0, 0]) #v[0, -4, -4, 0, 0, 1] .halted = true := by decide
theorem test_setr_self :
    goesTo (one (.setr 3 0 3) #v[0, 0, 0, 8, 0, 0]) #v[0, 0, 0, 8, 0, 1] .halted = true := by decide
theorem test_seti_ignored_B :
    goesTo (one (.seti 5 99 1) #v[0, 0, 0, 0, 0, 0]) #v[0, 5, 0, 0, 0, 1] .halted = true := by decide
theorem test_seti_min :
    goesTo (one (.seti (-9223372036854775808) 0 0) #v[0, 0, 0, 0, 0, 0]) #v[-9223372036854775808, 0, 0, 0, 0, 1] .halted = true := by decide
theorem test_gtir_signed :
    goesTo (one (.gtir (-1) 1 2) #v[0, 0, 0, 0, 0, 0]) #v[0, 0, 0, 0, 0, 1] .halted = true := by decide
theorem test_gtir_literal_left :
    goesTo (one (.gtir 5 1 2) #v[0, 3, 0, 0, 0, 0]) #v[0, 3, 1, 0, 0, 1] .halted = true := by decide
theorem test_gtri_negatives :
    goesTo (one (.gtri 1 (-7) 2) #v[0, -2, 0, 0, 0, 0]) #v[0, -2, 1, 0, 0, 1] .halted = true := by decide
theorem test_gtri_equal :
    goesTo (one (.gtri 1 5 2) #v[0, 5, 0, 0, 0, 0]) #v[0, 5, 0, 0, 0, 1] .halted = true := by decide
theorem test_gtrr_extremes :
    goesTo (one (.gtrr 1 2 3) #v[0, 9223372036854775807, -9223372036854775808, 0, 0, 0]) #v[0, 9223372036854775807, -9223372036854775808, 1, 0, 1] .halted = true := by decide
theorem test_gtrr_old_source :
    goesTo (one (.gtrr 1 2 1) #v[0, 9, 2, 0, 0, 0]) #v[0, 1, 2, 0, 0, 1] .halted = true := by decide
theorem test_eqir_literal_7 :
    goesTo (one (.eqir 7 1 2) #v[0, 7, 0, 0, 0, 0]) #v[0, 7, 1, 0, 0, 1] .halted = true := by decide
theorem test_eqir_unequal :
    goesTo (one (.eqir 6 1 2) #v[0, 7, 0, 0, 0, 0]) #v[0, 7, 0, 0, 0, 1] .halted = true := by decide
theorem test_eqri_old_source :
    goesTo (one (.eqri 1 (-1) 1) #v[0, -1, 0, 0, 0, 0]) #v[0, 1, 0, 0, 0, 1] .halted = true := by decide
theorem test_eqri_extremes :
    goesTo (one (.eqri 1 9223372036854775807 2) #v[0, -9223372036854775808, 0, 0, 0, 0]) #v[0, -9223372036854775808, 0, 0, 0, 1] .halted = true := by decide
theorem test_eqrr_signs :
    goesTo (one (.eqrr 1 2 3) #v[0, 4, -4, 0, 0, 0]) #v[0, 4, -4, 0, 0, 1] .halted = true := by decide
theorem test_eqrr_self :
    goesTo (one (.eqrr 1 1 1) #v[0, 77, 0, 0, 0, 0]) #v[0, 1, 0, 0, 0, 1] .halted = true := by decide

/-! ### The pointer as operand and as destination: table V8 -/

theorem test_pointer_as_operand :
    goesTo (many 8 (.addr 5 5 0) #v[0, 0, 0, 0, 0, 3]) #v[6, 0, 0, 0, 0, 4] .running = true ∧
    goesTo (many 8 (.setr 5 0 2) #v[0, 0, 0, 0, 0, 3]) #v[0, 0, 3, 0, 0, 4] .running = true := by decide
theorem test_transfers_continue :
    goesTo (many 8 (.addi 5 2 5) #v[0, 0, 0, 0, 0, 3]) #v[0, 0, 0, 0, 0, 6] .running = true ∧
    goesTo (many 8 (.addi 5 (-1) 5) #v[0, 0, 0, 0, 0, 3]) #v[0, 0, 0, 0, 0, 3] .running = true ∧
    goesTo (many 8 (.addi 5 3 5) #v[0, 0, 0, 0, 0, 3]) #v[0, 0, 0, 0, 0, 7] .running = true ∧
    goesTo (many 20 (.mulr 5 5 5) #v[0, 0, 0, 0, 0, 3]) #v[0, 0, 0, 0, 0, 10] .running = true ∧
    goesTo (many 8 (.gtrr 5 1 5) #v[0, 2, 0, 0, 0, 3]) #v[0, 2, 0, 0, 0, 2] .running = true ∧
    goesTo (many 8 (.seti (-1) 0 5) #v[0, 0, 0, 0, 0, 3]) #v[0, 0, 0, 0, 0, 0] .running = true := by decide
theorem test_transfers_halt :
    goesTo (many 8 (.addi 5 4 5) #v[0, 0, 0, 0, 0, 3]) #v[0, 0, 0, 0, 0, 8] .halted = true ∧
    goesTo (many 8 (.seti 1000 0 5) #v[0, 0, 0, 0, 0, 3]) #v[0, 0, 0, 0, 0, 1001] .halted = true ∧
    goesTo (many 8 (.seti 9 0 0) #v[0, 0, 0, 0, 0, 7]) #v[9, 0, 0, 0, 0, 8] .halted = true := by decide
theorem test_negative_pointer_is_no_halt :
    goesTo (many 8 (.seti (-2) 0 5) #v[0, 0, 0, 0, 0, 3]) #v[0, 0, 0, 0, 0, -1] .running = true ∧
    goesTo (many 8 (.seti 9223372036854775807 0 5) #v[0, 0, 0, 0, 0, 3]) #v[0, 0, 0, 0, 0, -9223372036854775808] .running = true := by decide

/-! ### Faults and refusals: table V9 -/

theorem test_fetch_range_faults :
    goesTo (many 3 (.seti 0 0 0) #v[1, 2, 3, 4, 5, -1]) #v[1, 2, 3, 4, 5, -1] .faulted .fetchRange = true ∧
    goesTo (many 3 (.seti 0 0 0) #v[0, 0, 0, 0, 0, -9223372036854775808]) #v[0, 0, 0, 0, 0, -9223372036854775808] .faulted .fetchRange = true ∧
    goesTo (many 0 (.seti 0 0 0) #v[0, 0, 0, 0, 0, 0]) #v[0, 0, 0, 0, 0, 0] .faulted .fetchRange = true := by decide
theorem test_reg_index_faults :
    goesTo (one (.addr 1 6 2) #v[0, 4, 0, 0, 0, 0]) #v[0, 4, 0, 0, 0, 0] .faulted .regIndex = true ∧
    goesTo (one (.addr (-1) 0 0) #v[0, 4, 0, 0, 0, 0]) #v[0, 4, 0, 0, 0, 0] .faulted .regIndex = true ∧
    goesTo (one (.setr 6 0 1) #v[0, 4, 0, 0, 0, 0]) #v[0, 4, 0, 0, 0, 0] .faulted .regIndex = true ∧
    goesTo (one (.seti 6 6 7) #v[0, 4, 0, 0, 0, 0]) #v[0, 4, 0, 0, 0, 0] .faulted .regIndex = true ∧
    goesTo (one (.gtir 6 6 0) #v[0, 4, 0, 0, 0, 0]) #v[0, 4, 0, 0, 0, 0] .faulted .regIndex = true ∧
    goesTo (one (.eqrr 1 2 8) #v[0, 4, 0, 0, 0, 0]) #v[0, 4, 0, 0, 0, 0] .faulted .regIndex = true := by decide
theorem test_no_fault_ignored_B :
    goesTo (one (.setr 1 6 1) #v[0, 4, 0, 0, 0, 0]) #v[0, 4, 0, 0, 0, 1] .halted = true := by decide
theorem test_no_fault_literal_A :
    goesTo (one (.gtir 6 4 0) #v[0, 4, 0, 0, 0, 0]) #v[1, 4, 0, 0, 0, 1] .halted = true := by decide
theorem test_word_slot_runs :
    goesTo (block [.word (BitVec.ofNat IW 0x00000000000000030000000000000000A1)] #v[0, 4, 0, 0, 0, 0])
      #v[0, 4, 10, 0, 0, 1] .halted = true := by decide
theorem test_status_codes : [Status.idle, .running, .halted, .faulted].map Status.code = [0, 1, 2, 3] ∧
    [Cause.none, .fetchRange, .regIndex].map Cause.code = [0, 1, 2] := by decide

/-! ### The text form: the program of 30_encoding.md R76 and the errors of R78 -/

/-- The seven-instruction program. -/
def sampleText : List Char :=
  ['#', 'i', 'p', ' ', '0', '\n', 's', 'e', 't', 'i', ' ', '5', ' ', '0', ' ', '1', '\n',
    'a', 'd', 'd', 'i', '\t', '0', ' ', ' ', '-', '1', '2', ' ', '0']

theorem test_parse : parseText sampleText = .ok (0, [.seti 5 0 1, .addi 0 (-12) 0]) := by decide
theorem test_parse_no_directive : parseText ['s', 'e', 't', 'i', ' ', '5', ' ', '0', ' ', '1'] =
    .error .missingDirective := by decide
theorem test_parse_bad_directive : parseText ['#', 'i', 'p', ' ', '6'] = .error .badDirective := by
  decide
theorem test_parse_duplicate_directive :
    parseText ['#', 'i', 'p', ' ', '0', '\n', '#', 'i', 'p', ' ', '0'] = .error .duplicateDirective := by
  decide
theorem test_parse_unknown_mnemonic :
    parseText ['#', 'i', 'p', ' ', '0', '\n', 'n', 'o', 'p', ' ', '0', ' ', '0', ' ', '0'] =
      .error .unknownMnemonic := by decide
theorem test_parse_malformed_operand :
    parseText ['#', 'i', 'p', ' ', '0', '\n', 's', 'e', 't', 'i', ' ', '+', '1', ' ', '0', ' ', '0'] =
      .error .malformedOperand := by decide
theorem test_operand_range : operand "9223372036854775807".toList = some 9223372036854775807 ∧
    operand "9223372036854775808".toList = none := by decide

/-! ### Witnesses: what meets the hypotheses of every statement that has some -/

/-- A running block about to execute `i` at address 3 of a program of 8. -/
def mid (i : Instr) : State := many 8 i #v[0, 4, 9, 0, 0, 3]

/-- The last address of the same program. -/
def last (i : Instr) : State := many 8 i #v[0, 4, 9, 0, 0, 7]

/-- The checks of a launch, as a Bool. -/
def wfLaunch (s : State) : Bool := s.paramProblem = none

theorem wellFormedLaunch_of {s : State} (h : wfLaunch s = true) : WellFormedLaunch s :=
  paramProblem_eq_none.1 (of_decide_eq_true h)

/-- The five facts of `AboutToExecute`, as one equation. -/
theorem about_of {s : State} {p : Fin NREG} {a : Nat} {i : Instr}
    (h : (s.status, s.request, s.ip, (s.x p).toInt, (s.prog[a]?).map Slot.instr) =
      (.running, none, some p, (a : Int), some i)) : AboutToExecute s p a i := by
  simp only [Prod.mk.injEq] at h
  exact h

/-- The outcome is this next state, as a Bool. -/
def isNext (o : Host.Outcome State Fault Refusal) (t : State) : Bool :=
  match o with
  | .next u => u = t
  | .fault _ => false
  | .refused _ => false

theorem isNext_eq {o : Host.Outcome State Fault Refusal} {t : State} (h : isNext o t = true) :
    o = .next t := by
  cases o <;> simp_all [isNext]

theorem witness_literals : IsLiteral 0 ∧ IsLiteral (-9223372036854775808) ∧
    IsLiteral 9223372036854775807 := by unfold IsLiteral; decide
theorem witness_AddFamilyResult : IsLiteral (-12) := by unfold IsLiteral; decide
theorem witness_MultiplyFamilyResult : IsLiteral (-2) := by unfold IsLiteral; decide
theorem witness_AndFamilyResult : IsLiteral (-256) := by unfold IsLiteral; decide
theorem witness_OrFamilyResult : IsLiteral 256 := by unfold IsLiteral; decide
theorem witness_AndWithMaskReducesModulo : 0 < XLEN ∧ 4 < XLEN ∧ 63 < XLEN := by decide
theorem witness_SetFamilyIgnoresB : IsLiteral 9223372036854775807 := by unfold IsLiteral; decide
theorem witness_SetFamilyIgnoresB_word_and_line : WellFormed (.setr 1 99 2) ∧
    instrLine ['s', 'e', 't', 'r', ' ', '1', ' ', '9', '9', ' ', '2'] = .ok (.setr 1 99 2) := by decide
theorem witness_ComparisonWritesOneOrZero : IsLiteral (-7) := by unfold IsLiteral; decide
theorem witness_EveryInstructionWritesExactlyItsDestination :
    WellFormed (.eqrr 1 2 5) ∧ AboutToExecute (mid (.eqrr 1 2 5)) 5 3 (.eqrr 1 2 5) ∧
      (Instr.eqrr 1 2 5).C = reg 5 := ⟨by decide, about_of (by decide), by decide⟩
theorem witness_RegisterIndexFault_good_and_bad : NamesRegisters (.addr 1 2 3) ∧
    ¬ NamesRegisters (.addr (-1) 2 3) ∧ ¬ NamesRegisters (.addr 1 6 3) ∧
    ¬ NamesRegisters (.addr 1 2 6) := by unfold NamesRegisters; decide
theorem witness_LiteralOutOfRange_above : NamesRegisters (.addi 1 9223372036854775808 2) ∧
    (Instr.addi 1 9223372036854775808 2).roleB = .lit ∧ ¬ IsLiteral 9223372036854775808 := by
  unfold NamesRegisters IsLiteral; decide
theorem witness_LiteralOutOfRange_below : NamesRegisters (.seti (-9223372036854775809) 0 2) ∧
    (Instr.seti (-9223372036854775809) 0 2).roleA = .lit ∧
    ¬ IsLiteral (-9223372036854775809) := by unfold NamesRegisters IsLiteral; decide
theorem witness_StepRunsTheDecodedInstruction_tuple :
    let s := mid (.addr 1 2 3)
    s.status = .running ∧ s.request = none ∧ s.ip = some 5 ∧ (s.x 5).toInt = (3 : Nat) ∧
      s.prog[3]? = some (.tuple (.addr 1 2 3)) ∧ WellFormed (.addr 1 2 3) := by decide
theorem witness_StepRunsTheDecodedInstruction_word :
    let W : InstrWord := BitVec.ofNat IW 0x00000000000000010000000000000000B0
    let s := block [.word W] #v[0, 0, 0, 0, 0, 0]
    s.status = .running ∧ s.request = none ∧ s.ip = some 5 ∧ (s.x 5).toInt = (0 : Nat) ∧
      s.prog[0]? = some (.word W) ∧ decode W = .addr 1 2 3 ∧ WellFormed (.addr 1 2 3) := by decide
theorem witness_PointerWriteIsAJumpToOneMore :
    AboutToExecute (mid (.addi 5 2 5)) 5 3 (.addi 5 2 5) ∧ WellFormed (.addi 5 2 5) ∧
      (Instr.addi 5 2 5).C = reg 5 := ⟨about_of (by decide), by decide, by decide⟩
theorem witness_SequentialFlow_running : AboutToExecute (mid (.addr 1 2 3)) 5 3 (.addr 1 2 3) ∧
    WellFormed (.addr 1 2 3) ∧ (mid (.addr 1 2 3)).plen ≤ PLEN_MAX ∧ (Instr.addr 1 2 3).C ≠ reg 5 :=
  ⟨about_of (by decide), by decide, by decide, by decide⟩
theorem witness_SequentialFlow_last : AboutToExecute (last (.addr 1 2 3)) 5 7 (.addr 1 2 3) ∧
    (last (.addr 1 2 3)).plen ≤ 7 + 1 := ⟨about_of (by decide), by decide⟩
theorem witness_HaltingTestFollowsTheIncrement_halts :
    AboutToExecute (last (.addr 1 2 3)) 5 7 (.addr 1 2 3) ∧ WellFormed (.addr 1 2 3) ∧
      goesTo (last (.addr 1 2 3)) #v[0, 4, 9, 13, 0, 8] .halted = true :=
  ⟨about_of (by decide), by decide, by decide⟩
theorem witness_HaltingTestFollowsTheIncrement_negative_runs :
    AboutToExecute (mid (.seti (-2) 0 5)) 5 3 (.seti (-2) 0 5) ∧ WellFormed (.seti (-2) 0 5) ∧
      goesTo (mid (.seti (-2) 0 5)) #v[0, 4, 9, 0, 0, -1] .running = true :=
  ⟨about_of (by decide), by decide, by decide⟩
theorem witness_HaltingTestFollowsTheIncrement_first_cycle :
    let s := block [.tuple (.seti 9 0 0)] #v[0, 0, 0, 0, 0, 0]
    (s.status = .running ∧ s.request = none ∧ s.ip = some 5 ∧ s.x 5 = 0) ∧ WellFormedLaunch s :=
  ⟨by decide, wellFormedLaunch_of (by decide)⟩
theorem witness_CycleTouchesOnlyDestinationAndPointer :
    AboutToExecute (mid (.muli 1 (-2) 4)) 5 3 (.muli 1 (-2) 4) ∧ WellFormed (.muli 1 (-2) 4) :=
  ⟨about_of (by decide), by decide⟩
theorem witness_InstructionReadsItsOwnAddress :
    AboutToExecute (mid (.addr 5 5 0)) 5 3 (.addr 5 5 0) ∧ WellFormed (.addr 5 5 0) ∧
      (Instr.addr 5 5 0).roleA = .reg ∧ (Instr.addr 5 5 0).A = reg 5 ∧
      (Instr.addr 5 5 0).roleB = .reg ∧ (Instr.addr 5 5 0).B = reg 5 :=
  ⟨about_of (by decide), by decide, by decide, by decide, by decide, by decide⟩
theorem witness_TransferHasThreeOutcomes_first_and_last_address :
    AboutToExecute (mid (.seti (-1) 0 5)) 5 3 (.seti (-1) 0 5) ∧
      AboutToExecute (mid (.seti 6 0 5)) 5 3 (.seti 6 0 5) ∧
      goesTo (mid (.seti (-1) 0 5)) #v[0, 4, 9, 0, 0, 0] .running = true ∧
      goesTo (mid (.seti 6 0 5)) #v[0, 4, 9, 0, 0, 7] .running = true :=
  ⟨about_of (by decide), about_of (by decide), by decide, by decide⟩
theorem witness_TransferHasThreeOutcomes_to_plen_halts :
    AboutToExecute (mid (.seti 7 0 5)) 5 3 (.seti 7 0 5) ∧
      goesTo (mid (.seti 7 0 5)) #v[0, 4, 9, 0, 0, 8] .halted = true :=
  ⟨about_of (by decide), by decide⟩
theorem witness_TransferHasThreeOutcomes_negative_faults_next :
    AboutToExecute (mid (.seti (-2) 0 5)) 5 3 (.seti (-2) 0 5) ∧
      goesTo (mid (.seti (-2) 0 5)) #v[0, 4, 9, 0, 0, -1] .running = true ∧
      goesTo (many 8 (.seti (-2) 0 5) #v[0, 4, 9, 0, 0, -1]) #v[0, 4, 9, 0, 0, -1] .faulted
        .fetchRange = true := ⟨about_of (by decide), by decide, by decide⟩
theorem witness_SetiIntoThePointerJumps_bounds :
    AboutToExecute (mid (.seti (-1) 0 (reg 5))) 5 3 (.seti (-1) 0 (reg 5)) ∧ (-1 : Int) < MAX ∧
      AboutToExecute (mid (.seti 6 0 (reg 5))) 5 3 (.seti 6 0 (reg 5)) ∧
      AboutToExecute (mid (.seti 7 0 (reg 5))) 5 3 (.seti 7 0 (reg 5)) ∧
      AboutToExecute (mid (.seti (MAX - 1) 0 (reg 5))) 5 3 (.seti (MAX - 1) 0 (reg 5)) ∧
      (mid (.seti 7 0 (reg 5))).plen = 8 :=
  ⟨about_of (by decide), by decide, about_of (by decide), about_of (by decide),
    about_of (by decide), by decide⟩
theorem witness_SelfJumpRunsForEver :
    AboutToExecute (mid (.addi (reg 5) (-1) (reg 5))) 5 3 (.addi (reg 5) (-1) (reg 5)) :=
  about_of (by decide)

/-- A run of three instructions that never write the pointer register, at its start. -/
def straight : State :=
  block [.tuple (.seti 7 0 1), .word (BitVec.ofNat IW 0x00000000000000010000000000000000B0),
    .tuple (.eqrr 1 2 0)] #v[0, 0, 0, 0, 0, 0]

theorem witness_StraightLineRunHaltsAfterPlenSteps :
    (straight.status = .running ∧ straight.request = none ∧ straight.ip = some 5 ∧
      straight.x 5 = 0) ∧ WellFormedLaunch straight ∧ NeverWrites 5 straight.prog :=
  ⟨by decide, wellFormedLaunch_of (by decide), by unfold NeverWrites; decide⟩
theorem witness_FetchOutOfRangeFaults :
    let s := many 3 (.seti 0 0 0) #v[1, 2, 3, 4, 5, -1]
    let t := many 3 (.seti 0 0 0) #v[1, 2, 3, 4, 5, 3]
    (s.status = .running ∧ s.request = none ∧ s.ip = some 5 ∧ (s.x 5).toInt < 0) ∧
      t.status = .running ∧ t.request = none ∧ t.ip = some 5 ∧ (t.plen : Int) ≤ (t.x 5).toInt := by
  decide
theorem witness_RegisterIndexFaultIsPrecise :
    AboutToExecute (mid (.addr 1 6 2)) 5 3 (.addr 1 6 2) ∧ ¬ NamesRegisters (.addr 1 6 2) :=
  ⟨about_of (by decide), by unfold NamesRegisters; decide⟩

/-- Ended runs. -/
def halted : State := { last (.addr 1 2 3) with status := .halted, request := some .launch }
def faulted : State := { mid (.addr 1 6 2) with status := .faulted, cause := .regIndex }

theorem witness_EndedRunsKeepTheirState :
    (halted.status = .halted ∧ halted.request ≠ some .reset) ∧
      faulted.status = .faulted ∧ faulted.request ≠ some .reset := by decide
theorem witness_IllegalPointerBindingIsRefused :
    let s : State := { mid (.addr 1 2 3) with ipsel := 6 }
    let t : State := { mid (.addr 1 2 3) with ipsel := 7 }
    (s.status = .running ∧ s.request = none ∧ 6 ≤ s.ipsel.toNat) ∧
      t.status = .running ∧ t.request = none ∧ 6 ≤ t.ipsel.toNat := by decide
theorem witness_ResetFromAnyState :
    ({ mid (.addr 1 2 3) with request := some .reset } : State).request = some .reset := by decide

/-- A block in IDLE whose launch waits. -/
def launching (prog : List Slot) : State := { parked 5 prog with request := some .launch }

theorem witness_WellFormedLaunchStartsTheRun :
    let s := launching [.tuple (.addr 1 5 2)]
    s.request = some .launch ∧ s.status = .idle ∧ WellFormedLaunch s :=
  ⟨rfl, rfl, wellFormedLaunch_of (by decide)⟩
theorem witness_RefusedLaunch_bad_program :
    let s := launching [.tuple (.addr 1 6 2)]
    s.request = some .launch ∧ ¬ (s.status = .idle ∧ WellFormedLaunch s) :=
  ⟨rfl, fun h => absurd (paramProblem_eq_none.2 h.2) (by decide)⟩
theorem witness_RefusedLaunch_not_idle :
    halted.request = some .launch ∧ ¬ (halted.status = .idle ∧ WellFormedLaunch halted) :=
  ⟨rfl, fun h => absurd h.1 (by decide)⟩
theorem witness_FirstInstructionIsAtAddressZero :
    let s := launching [.tuple (.addr 1 5 2)]
    RunInv s ∧ s.request = some .launch ∧ s.status = .idle ∧ WellFormedLaunch s :=
  ⟨⟨rfl, by decide⟩, rfl, rfl, wellFormedLaunch_of (by decide)⟩
theorem witness_LifeOfARun_reset :
    let s : State := { mid (.addr 1 2 3) with request := some .reset }
    step s = .next State.reset ∧ s.status ≠ State.reset.status := ⟨rfl, by decide⟩
theorem witness_LifeOfARun_launch :
    goesTo (launching [.tuple (.addr 1 5 2)]) #v[0, 0, 0, 0, 0, 0] .running = true := by decide
theorem witness_LifeOfARun_halt :
    goesTo (last (.addr 1 2 3)) #v[0, 4, 9, 13, 0, 8] .halted = true := by decide
theorem witness_LifeOfARun_fault :
    goesTo (mid (.addr 1 6 2)) #v[0, 4, 9, 0, 0, 3] .faulted .regIndex = true := by decide
theorem witness_HostCanOnlyResetAfterLaunch :
    let s := mid (.addr 1 2 3)
    s.status ≠ .idle ∧ hostMove (.request .reset) s = some { s with request := some .reset } := by
  decide
theorem witness_IpselIsSuppliedExactlyOnce_0_and_5 :
    (State.reset.status = .idle ∧ State.reset.request = none ∧ State.reset.ipselSet = false) ∧
      hostMove (.setIpsel 0) State.reset = some { State.reset with ipsel := 0, ipselSet := true } ∧
      hostMove (.setIpsel 5) State.reset = some (parked 5 []) := by decide
theorem witness_IpselIsSuppliedExactlyOnce_set : (parked 5 []).ipselSet = true ∧
    hostMove (.load [.tuple (.addr 1 5 2)]) (parked 5 []) = some (parked 5 [.tuple (.addr 1 5 2)]) := by
  decide
theorem witness_IpselIsSuppliedExactlyOnce_launch :
    step (launching [.tuple (.addr 1 5 2)]) =
        .next { parked 5 [.tuple (.addr 1 5 2)] with status := .running } ∧
      (launching [.tuple (.addr 1 5 2)]).request ≠ some .reset ∧
      (launching [.tuple (.addr 1 5 2)]).status ≠ .running :=
  ⟨isNext_eq (by decide), by decide, by decide⟩
theorem test_ipsel_is_not_set_twice : hostMove (.setIpsel 3) (parked 5 []) = none ∧
    hostMove (.setIpsel 8) State.reset = none := by decide
theorem witness_SnapshotIsReadInHaltedOnly :
    halted.status = .halted ∧ halted.snapshot = some #v[0, 4, 9, 0, 0, 7] ∧
      faulted.status ≠ .halted ∧ faulted.faultedRegisters = some #v[0, 4, 9, 0, 0, 3] := by decide
theorem witness_NothingWritesTheProgramStore :
    exec (.seti 1 0 5) (mid (.seti 1 0 5)) = .next (many 8 (.seti 1 0 5) #v[0, 4, 9, 0, 0, 1]) ∧
      step (mid (.seti 1 0 5)) = .next (many 8 (.seti 1 0 5) #v[0, 4, 9, 0, 0, 2]) ∧
      (mid (.seti 1 0 5)).request ≠ some .reset :=
  ⟨isNext_eq (by decide), isNext_eq (by decide), by decide⟩
theorem witness_ProgramCannotReadTheCause :
    (mid (.addr 1 2 3)).status = .running ∧ (mid (.addr 1 2 3)).request = none := by decide
theorem witness_DecodeOfEncode : WellFormed (.seti (-9223372036854775808) 9223372036854775807 5) := by
  decide
theorem witness_StepKeepsTheInvariant :
    RunInv straight ∧ goesTo straight #v[0, 7, 0, 0, 0, 1] .running = true :=
  ⟨⟨rfl, wellFormedLaunch_of (by decide), 5, rfl, by decide⟩, by decide⟩
theorem witness_HostMovesKeepTheInvariant : RunInv State.reset ∧
    hostMove (.setIpsel 7) State.reset = some { State.reset with ipsel := 7, ipselSet := true } ∧
    hostMove (.load [.tuple (.seti 0 0 0)]) State.reset =
      some { State.reset with prog := [.tuple (.seti 0 0 0)] } ∧
    hostMove (.request .launch) State.reset =
      some { State.reset with request := some .launch } :=
  ⟨⟨rfl, by decide⟩, by decide, by decide, by decide⟩

/-- The state after the host has set `IPSEL` and the program and asserted `launch`. -/
theorem reachable_launching (n : Int) (h : 0 ≤ n ∧ n ≤ 7) (prog : List Slot) :
    Reachable { State.reset with
      ipsel := BitVec.ofInt 3 n, ipselSet := true, prog := prog, request := some .launch } :=
  .host (.request .launch)
    (.host (.load prog) (.host (.setIpsel n) .reset (if_pos ⟨rfl, rfl, rfl, h⟩)) rfl) rfl

/-- One jump to address -1, from reset to the fault. -/
theorem witness_ReachableFaultsAreNegativePointersOnly_faulted :
    Reachable { many 1 (.seti (-2) 0 5) #v[0, 0, 0, 0, 0, -1] with
      status := .faulted, cause := .fetchRange } :=
  .step (.step (.step (reachable_launching 5 (by decide) [.tuple (.seti (-2) 0 5)])
    (t := many 1 (.seti (-2) 0 5) #v[0, 0, 0, 0, 0, 0]) (isNext_eq (by decide)))
    (t := many 1 (.seti (-2) 0 5) #v[0, 0, 0, 0, 0, -1]) (isNext_eq (by decide))) (isNext_eq (by decide))
theorem witness_ReachableFaultsAreNegativePointersOnly_halted :
    Reachable { many 1 (.seti 9 0 0) #v[9, 0, 0, 0, 0, 1] with status := .halted } :=
  .step (.step (reachable_launching 5 (by decide) [.tuple (.seti 9 0 0)])
    (t := many 1 (.seti 9 0 0) #v[0, 0, 0, 0, 0, 0]) (isNext_eq (by decide))) (isNext_eq (by decide))
theorem witness_ReachableStatesAlwaysStep_running :
    Reachable (many 1 (.seti 9 0 0) #v[0, 0, 0, 0, 0, 0]) :=
  .step (reachable_launching 5 (by decide) [.tuple (.seti 9 0 0)]) (isNext_eq (by decide))
theorem witness_LatchedImplementationIsTheSameMachine :
    (mid (.addi 5 2 5)).status = .running ∧ (mid (.addi 5 2 5)).ip = some 5 := by decide
theorem witness_AcceptedText :
    parseText sampleText = .ok (0, [.seti 5 0 1, .addi 0 (-12) 0]) ∧
      ([.seti 5 0 1, .addi 0 (-12) 0] : List Instr) ≠ [] ∧
      ([.seti 5 0 1, .addi 0 (-12) 0] : List Instr).length ≤ PLEN_MAX ∧
      ∀ i ∈ ([.seti 5 0 1, .addi 0 (-12) 0] : List Instr), WellFormed i := by decide

end Sys2Proof.Tests
end

section
/-! SUPPORT. `IPSEL` over the host's moves and the steps of the block (10_state.md R27, R28). -/

namespace Sys2Proof.Machine

open Safety

/-- The move that supplies `IPSEL`, where the host has it. -/
theorem hostMove_setIpsel {s : State} {v : Int} (hidle : s.status = .idle) (hreq : s.request = none)
    (hset : s.ipselSet = false) (h0 : 0 ≤ v) (h7 : v ≤ 7) :
    hostMove (.setIpsel v) s = some { s with ipsel := BitVec.ofInt 3 v, ipselSet := true } :=
  if_pos ⟨hidle, hreq, hset, h0, h7⟩

/-- The three bits that supply the index of a register bind the pointer to it. -/
theorem ip_of_ipsel_eq_ofInt {s : State} {p : Fin NREG} (h : s.ipsel = BitVec.ofInt 3 (reg p)) :
    s.ip = some p := by
  have hp : p.val < 2 ^ 3 := lt_trans p.isLt (by decide)
  rw [ip_eq_some, h, reg, BitVec.ofInt_natCast, BitVec.toNat_ofNat, Nat.mod_eq_of_lt hp]

/-- `IPSEL` is supplied only in `IDLE` where it is not supplied yet. -/
theorem hostMove_setIpsel_inv {s t : State} {v : Int} (h : hostMove (.setIpsel v) s = some t) :
    s.status = .idle ∧ s.ipselSet = false ∧ t.ipselSet = true := by
  obtain ⟨hm, -⟩ | ⟨hidle, -, ⟨_, -, hset, -, -, rfl⟩ | ⟨_, hm, -⟩ | ⟨hm, -⟩⟩ := hostMove_cases h
  · cases hm
  · exact ⟨hidle, hset, rfl⟩
  · cases hm
  · cases hm

/-- A move of the host keeps an `IPSEL` that is supplied. -/
theorem hostMove_keeps_ipsel {m : HostMove} {s t : State} (hset : s.ipselSet = true)
    (h : hostMove m s = some t) : t.ipselSet = true ∧ t.ipsel = s.ipsel := by
  obtain ⟨-, rfl⟩ | ⟨-, -, ⟨_, -, hunset, -⟩ | ⟨_, -, rfl⟩ | ⟨-, rfl⟩⟩ := hostMove_cases h
  · exact ⟨hset, rfl⟩
  · rw [hset] at hunset
    cases hunset
  · exact ⟨hset, rfl⟩
  · exact ⟨hset, rfl⟩

/-- Taking a launch, refused or not, keeps `IPSEL`. -/
theorem takeLaunch_keeps_ipsel (s : State) :
    (takeLaunch s).ipselSet = s.ipselSet ∧ (takeLaunch s).ipsel = s.ipsel := by
  obtain ⟨-, -, e⟩ | ⟨-, e⟩ := takeLaunch_cases s
  · exact e ▸ ⟨rfl, rfl⟩
  · exact e ▸ ⟨rfl, rfl⟩

/-- A step that does not take a reset keeps `IPSEL`. -/
theorem step_keeps_ipsel {s t : State} (h : step s = .next t) (hr : s.request ≠ some .reset) :
    t.ipselSet = s.ipselSet ∧ t.ipsel = s.ipsel := by
  obtain ⟨hreset, -⟩ | ⟨-, rfl⟩ | ⟨-, -, rfl⟩ | ⟨-, -, hcycle⟩ := step_cases h
  · exact absurd hreset hr
  · exact takeLaunch_keeps_ipsel s
  · exact ⟨rfl, rfl⟩
  · obtain ⟨-, hipsel, hset, -⟩ := cycle_frame hcycle
    exact ⟨hset, hipsel⟩

/-- A step that starts a run took a launch whose parameters are well formed. -/
theorem wellFormedLaunch_of_step_starts_run {s t : State} (h : step s = .next t)
    (ht : t.status = .running) (hs : s.status ≠ .running) : WellFormedLaunch s := by
  obtain ⟨-, rfl⟩ | ⟨-, rfl⟩ | ⟨-, -, rfl⟩ | ⟨-, hrun, -⟩ := step_cases h
  · cases ht
  · obtain ⟨-, hw, -⟩ | ⟨-, e⟩ := takeLaunch_cases s
    · exact hw
    · rw [e] at ht
      exact absurd ht hs
  · exact absurd ht hs
  · exact absurd hrun hs

/-- Settles O48: `hostMove_cases` and `step_cases` say who can write `IPSEL`, and a launch that is taken
has passed the checks of R69. -/
theorem ipselIsSuppliedExactlyOnce : Obligations.IpselIsSuppliedExactlyOnce := by
  refine ⟨fun v s hidle hreq hset h0 h5 => ?_, fun _ _ _ => hostMove_setIpsel_inv,
    fun _ _ _ => hostMove_keeps_ipsel, fun s t h hr => ?_⟩
  · obtain ⟨p, rfl⟩ : ∃ p, v = reg p := exists_of_indexOk (indexOk_iff.2 ⟨h0, h5⟩)
    exact ⟨_, p, hostMove_setIpsel hidle hreq hset h0 (by omega), rfl, ip_of_ipsel_eq_ofInt rfl, rfl⟩
  · obtain ⟨hset, hipsel⟩ := step_keeps_ipsel h hr
    refine ⟨hset, hipsel, fun ht hs => ?_⟩
    obtain ⟨hsupplied, hip, -⟩ := wellFormedLaunch_of_step_starts_run h ht hs
    exact ⟨hsupplied, hip⟩

end Sys2Proof.Machine
end

section
/-! SUPPORT. The program store over instructions, steps and the host's moves (20_memory.md R44). -/

namespace Sys2Proof.Machine

/-- The execute phase leaves the program and the pointer's binding alone, in an instruction that completes
and in one that faults. -/
theorem exec_keeps_prog_and_ipsel {i : Instr} {s t : State} (h : exec i s = .next t) :
    t.prog = s.prog ∧ t.ipsel = s.ipsel := by
  obtain ⟨_, _, -, rfl⟩ | rfl := exec_next_cases h
  · exact ⟨rfl, rfl⟩
  · exact ⟨rfl, rfl⟩

/-- Taking a launch, refused or not, keeps the program. -/
theorem takeLaunch_keeps_prog (s : State) : (takeLaunch s).prog = s.prog := by
  obtain ⟨-, -, e⟩ | ⟨-, e⟩ := takeLaunch_cases s
  · rw [e]
  · rw [e]

/-- A step that does not take a reset keeps the program. -/
theorem step_keeps_prog {s t : State} (h : step s = .next t) (hr : s.request ≠ some .reset) :
    t.prog = s.prog := by
  obtain ⟨hreset, -⟩ | ⟨-, rfl⟩ | ⟨-, -, rfl⟩ | ⟨-, -, hcycle⟩ := step_cases h
  · exact absurd hreset hr
  · exact takeLaunch_keeps_prog s
  · rfl
  · obtain ⟨hprog, -⟩ := cycle_frame hcycle
    exact hprog

/-- Outside `IDLE` the host has no move but `reset`, and asserting it keeps the program. -/
theorem hostMove_keeps_prog {m : HostMove} {s t : State} (hs : s.status ≠ .idle)
    (h : hostMove m s = some t) : t.prog = s.prog := by
  obtain ⟨-, rfl⟩ | ⟨hidle, -⟩ := hostMove_cases h
  · rfl
  · exact absurd hidle hs

/-- Settles O33: an instruction writes one register or raises a fault, a step takes a launch or runs a
cycle, and the host loads a program in `IDLE` only. -/
theorem nothingWritesTheProgramStore : Obligations.NothingWritesTheProgramStore := by
  refine ⟨fun _ _ _ => exec_keeps_prog_and_ipsel, fun s t h hr => ?_,
    fun _ _ _ => hostMove_keeps_prog⟩
  have hprog : t.prog = s.prog := step_keeps_prog h hr
  obtain ⟨-, hipsel⟩ := step_keeps_ipsel h hr
  exact ⟨hprog, hipsel, fetch_congr hprog⟩

end Sys2Proof.Machine
end

section
/-! SUPPORT. Assignment (42_assignment.md R110 to R112): the one operand A is copied, and field `B` is
carried by the word and by the text line. -/

namespace Sys2Proof.Machine

open Safety

/-- What `setr` means, with no regard to `B` (R111). -/
theorem exec_setr_eq_execOne (A B C : Int) (s : State) :
    exec (.setr A B C) s = execOne (.reg A) C s := rfl

/-- What `seti` means, with no regard to `B` (R112). -/
theorem exec_seti_eq_execOne (A B C : Int) (s : State) :
    exec (.seti A B C) s = execOne (.lit A) C s := rfl

theorem exec_setr_next (a c : Fin NREG) (B : Int) (s : State) :
    exec (.setr (reg a) B (reg c)) s = .next (s.setX c (s.x a)) := by
  rw [exec_setr_eq_execOne]
  exact execOne_next c (value_reg s a) rfl

theorem exec_seti_next {A : Int} (B : Int) (c : Fin NREG) (s : State) (hA : IsLiteral A) :
    exec (.seti A B (reg c)) s = .next (s.setX c (BitVec.ofInt XLEN A)) := by
  rw [exec_seti_eq_execOne]
  exact execOne_next c (value_lit s A) (inRange_lit hA)

/-- A field that passes the load check lies in `MIN .. MAX` in every role, the ignored one included. -/
theorem isLiteral_of_fieldOk {r : Role} {v : Int} (h : fieldOk r v = true) : IsLiteral v := by
  cases r with
  | reg => exact literalOk_iff.1 (literalOk_of_indexOk h)
  | lit => exact literalOk_iff.1 h
  | ignored => exact literalOk_iff.1 h

/-- The binary word carries field `B` of a well-formed instruction of any opcode (30_encoding.md R61). -/
theorem decode_encode_B {i : Instr} (h : WellFormed i) : (decode (encode i)).B = i.B := by
  obtain ⟨hC, -, hB⟩ := wf_iff.1 h
  obtain ⟨-, -, hdecode, -⟩ := decode_fields (encode i)
  obtain ⟨-, -, -, hencode⟩ := encode_fields hC
  rw [hdecode, hencode, isLiteral_toInt (isLiteral_of_fieldOk hB)]

/-- The text line carries field `B` as its second operand (30_encoding.md R72). -/
theorem instrLine_second_operand {line : List Char} {i : Instr} (h : instrLine line = .ok i) :
    ∃ m a b c, fields line = [m, a, b, c] ∧ operand b = some i.B := by
  obtain ⟨m, a, b, c, -, hfields, -, -, hb, -, -⟩ := instrLine_cases h
  exact ⟨m, a, b, c, hfields, hb⟩

/-- The two opcodes of the family give field `B` the ignored role (30_encoding.md R64). -/
theorem roleB_of_setFamily {i : Instr}
    (h : (∃ A B C, i = .setr A B C) ∨ ∃ A B C, i = .seti A B C) : i.roleB = .ignored := by
  obtain ⟨_, _, _, rfl⟩ | ⟨_, _, _, rfl⟩ := h
  · rfl
  · rfl

/-- Settles O6: both meanings are `execOne` of the operand A, in which `B` does not occur; that the word
and the line carry `B` holds of every opcode. -/
theorem setFamilyIgnoresB : Obligations.SetFamilyIgnoresB := by
  refine ⟨fun a c B s => ?_, fun A B c s hA => ?_, fun A B B' C s => ⟨?_, ?_⟩, fun i hi =>
    ⟨roleB_of_setFamily hi, decode_encode_B, fun _ => instrLine_second_operand⟩⟩
  · exact ⟨_, exec_setr_next a c B s, State.x_setX_same s c _, onlyRegister_setX s c _⟩
  · refine ⟨_, exec_seti_next B c s hA, ?_, onlyRegister_setX s c _⟩
    rw [State.x_setX_same, isLiteral_toInt hA]
  · rw [exec_setr_eq_execOne, exec_setr_eq_execOne]
  · rw [exec_seti_eq_execOne, exec_seti_eq_execOne]

end Sys2Proof.Machine
end

section
/-! SUPPORT. Comparisons (43_comparison.md R120 to R126): the six opcodes are two operations over three
operand forms. -/

namespace Sys2Proof.Machine

open Safety

/-- What `gtir` means: the literal is on the left (R121). -/
theorem exec_gtir_eq_execTwo (A B C : Int) (s : State) :
    exec (.gtir A B C) s = execTwo greaterThan (.lit A) (.reg B) C s := rfl

/-- What `gtri` means: the literal is on the right (R122). -/
theorem exec_gtri_eq_execTwo (A B C : Int) (s : State) :
    exec (.gtri A B C) s = execTwo greaterThan (.reg A) (.lit B) C s := rfl

/-- What `gtrr` means (R123). -/
theorem exec_gtrr_eq_execTwo (A B C : Int) (s : State) :
    exec (.gtrr A B C) s = execTwo greaterThan (.reg A) (.reg B) C s := rfl

/-- What `eqir` means: the literal is on the left (R124). -/
theorem exec_eqir_eq_execTwo (A B C : Int) (s : State) :
    exec (.eqir A B C) s = execTwo equalTo (.lit A) (.reg B) C s := rfl

/-- What `eqri` means: the literal is on the right (R125). -/
theorem exec_eqri_eq_execTwo (A B C : Int) (s : State) :
    exec (.eqri A B C) s = execTwo equalTo (.reg A) (.lit B) C s := rfl

/-- What `eqrr` means (R126). -/
theorem exec_eqrr_eq_execTwo (A B C : Int) (s : State) :
    exec (.eqrr A B C) s = execTwo equalTo (.reg A) (.reg B) C s := rfl

theorem execTwo_reg_reg (f : Word → Word → Word) (a b c : Fin NREG) (s : State) :
    execTwo f (.reg (reg a)) (.reg (reg b)) (reg c) s = .next (s.setX c (f (s.x a) (s.x b))) :=
  execTwo_next f c (value_reg s a) (value_reg s b) rfl rfl

theorem execTwo_lit_reg (f : Word → Word → Word) {A : Int} (b c : Fin NREG) (s : State)
    (hA : IsLiteral A) :
    execTwo f (.lit A) (.reg (reg b)) (reg c) s =
      .next (s.setX c (f (BitVec.ofInt XLEN A) (s.x b))) :=
  execTwo_next f c (value_lit s A) (value_reg s b) (inRange_lit hA) rfl

theorem execTwo_reg_lit (f : Word → Word → Word) {B : Int} (a c : Fin NREG) (s : State)
    (hB : IsLiteral B) :
    execTwo f (.reg (reg a)) (.lit B) (reg c) s =
      .next (s.setX c (f (s.x a) (BitVec.ofInt XLEN B))) :=
  execTwo_next f c (value_reg s a) (value_lit s B) rfl (inRange_lit hB)

theorem greaterThan_toInt (u v : Word) :
    (greaterThan u v).toInt = if u.toInt > v.toInt then 1 else 0 := by
  simp [greaterThan]

theorem equalTo_toInt (u v : Word) :
    (equalTo u v).toInt = if u.toInt = v.toInt then 1 else 0 := by
  simp [equalTo]

/-- A register write, with its frame and the signed value it leaves, in the words of the statements. -/
theorem onlyRegister_and_toInt_of_setX {o : Host.Outcome State Fault Refusal} {s : State}
    {c : Fin NREG} {w : Word} {n : Int} (ho : o = .next (s.setX c w)) (hw : w.toInt = n) :
    ∃ t, o = .next t ∧ OnlyRegister c s t ∧ (t.x c).toInt = n := by
  refine ⟨_, ho, onlyRegister_setX s c w, ?_⟩
  rw [State.x_setX_same, hw]

/-- Settles O7: each opcode writes `greaterThan` or `equalTo` of its two operand values, and a legal
literal keeps its signed value. -/
theorem comparisonWritesOneOrZero : Obligations.ComparisonWritesOneOrZero := by
  refine ⟨fun a b c s => ⟨?gtrr, ?eqrr⟩, fun r c v s hv => ?literal⟩
  case gtrr =>
    rw [exec_gtrr_eq_execTwo]
    exact onlyRegister_and_toInt_of_setX (execTwo_reg_reg _ a b c s) (greaterThan_toInt _ _)
  case eqrr =>
    rw [exec_eqrr_eq_execTwo]
    exact onlyRegister_and_toInt_of_setX (execTwo_reg_reg _ a b c s) (equalTo_toInt _ _)
  case literal =>
    have hval : (BitVec.ofInt XLEN v).toInt = v := isLiteral_toInt hv
    rw [exec_gtir_eq_execTwo, exec_gtri_eq_execTwo, exec_eqir_eq_execTwo, exec_eqri_eq_execTwo]
    refine ⟨onlyRegister_and_toInt_of_setX (execTwo_lit_reg _ r c s hv) ?_,
      onlyRegister_and_toInt_of_setX (execTwo_reg_lit _ r c s hv) ?_,
      onlyRegister_and_toInt_of_setX (execTwo_lit_reg _ r c s hv) ?_,
      onlyRegister_and_toInt_of_setX (execTwo_reg_lit _ r c s hv) ?_⟩
    · rw [greaterThan_toInt, hval]
    · rw [greaterThan_toInt, hval]
    · rw [equalTo_toInt, hval]
    · rw [equalTo_toInt, hval]

end Sys2Proof.Machine
end

section
/-! SUPPORT. The result of an instruction and the end of its cycle in the words of the statements
(44_processor_cycle.md R142, R144 to R146, R149). -/

namespace Sys2Proof.Machine

open Safety

/-- A well-formed operand field is read as the signed value that its role gives (30_encoding.md R64). -/
theorem operandValue_of_fieldValue {s : State} {r : Role} {v : Int} {w : Word}
    (hok : fieldOk r v = true) (hw : fieldValue s r v = some w) : OperandValue s r v w.toInt := by
  cases r with
  | reg =>
    obtain ⟨k, hk, rfl⟩ := Option.map_eq_some_iff.1 hw
    exact ⟨k, regIndex_eq_some.1 hk, rfl⟩
  | lit =>
    cases hw
    exact isLiteral_toInt (literalOk_iff.1 hok)
  | ignored => trivial

/-- There is one operand value of a register role: what the register holds. -/
theorem eq_of_operandValue_reg {s : State} {p : Fin NREG} {a : Int}
    (h : OperandValue s .reg (reg p) a) : a = (s.x p).toInt := by
  obtain ⟨k, hk, ha⟩ := h
  rw [reg_injective hk, ha]

/-- The operation that an opcode selects computes the result of the table of R142. -/
theorem resultOf_alu (i : Instr) (u v : Word) : ResultOf i u.toInt v.toInt (alu i u v).toInt := by
  cases i with
  | addr | addi | mulr | muli => exact wrapsTo_wrap _
  | banr | bani | borr | bori =>
    simp only [ResultOf, BitVec.ofInt_toInt]
    rfl
  | setr | seti => rfl
  | gtir | gtri | gtrr => exact greaterThan_toInt u v
  | eqir | eqri | eqrr => exact equalTo_toInt u v

/-- A well-formed instruction completes, and its destination alone is written, with the result for the
operand values of the state before the write. -/
theorem exec_resultOf_of_wf {i : Instr} (s : State) (h : WellFormed i) :
    ∃ (c : Fin NREG) (a b : Int) (t : State), i.C = reg c ∧ OperandValue s i.roleA i.A a ∧
      OperandValue s i.roleB i.B b ∧ exec i s = .next t ∧ ResultOf i a b (t.x c).toInt ∧
      OnlyRegister c s t := by
  obtain ⟨-, hA, hB⟩ := wf_iff.1 h
  obtain ⟨c, u, v, hC, hu, hv, hexec⟩ := exec_of_ok s (regsOk_of_wf h) (literalsOk_of_wf h)
  refine ⟨c, u.toInt, v.toInt, _, hC, operandValue_of_fieldValue hA hu,
    operandValue_of_fieldValue hB hv, hexec, ?_, onlyRegister_setX s c _⟩
  rw [State.x_setX_same]
  exact resultOf_alu i u v

/-- Increment and halting test are the end of a cycle. -/
theorem cycleEnd_advance (p : Fin NREG) (t : State) : CycleEnd p t (advance p t) := by
  refine ⟨?_, fun k hk => advance_x_of_ne t p hk, advance_status t p, advance_cause t p,
    advance_ipsel t p, advance_ipselSet t p, advance_prog t p, advance_request t p⟩
  rw [advance_x_same]
  exact wrapsTo_wrap _

/-- The step of a block about to execute a well-formed instruction: its execute phase, which changes
nothing but registers, and then the end of the cycle. -/
theorem step_cycleEnd_of_wf {s : State} {p : Fin NREG} {n : Nat} {i : Instr}
    (h : AboutToExecute s p n i) (hw : WellFormed i) :
    ∃ t u, exec i s = .next t ∧ step s = .next u ∧ SameButRegisters s t ∧ CycleEnd p t u := by
  obtain ⟨c, v, -, hexec, hstep⟩ := step_of_wf h hw
  obtain ⟨-, hsame, -⟩ := onlyRegister_setX s c v
  exact ⟨_, _, hexec, hstep, hsame, cycleEnd_advance p _⟩

/-- The status after a cycle of a running block, both ways (R146). -/
theorem status_iff_of_cycleEnd {p : Fin NREG} {t u : State} (h : CycleEnd p t u)
    (ht : t.status = .running) :
    (u.status = .halted ↔ (t.plen : Int) ≤ (u.x p).toInt) ∧
      (u.status = .running ↔ (u.x p).toInt < t.plen) := by
  obtain ⟨-, -, hstatus, -⟩ := h
  by_cases hle : (t.plen : Int) ≤ (u.x p).toInt
  · rw [hstatus, if_pos hle]
    exact ⟨iff_of_true rfl hle, iff_of_false (by decide) (by omega)⟩
  · rw [hstatus, if_neg hle, ht]
    exact ⟨iff_of_false (by decide) hle, iff_of_true rfl (by omega)⟩

/-- A run that begins with the pointer 0 is about to execute `PROG[0]`, with no test before it. -/
theorem aboutToExecute_first {s : State} {p : Fin NREG} (hrun : s.status = .running)
    (hreq : s.request = none) (hp : s.ip = some p) (h0 : s.x p = 0) (hw : WellFormedLaunch s) :
    ∃ i, AboutToExecute s p 0 i ∧ WellFormed i := by
  obtain ⟨-, -, hlen, -, hprog⟩ := hw
  refine ⟨s.prog[0].instr, ⟨hrun, hreq, hp, ?_, ?_⟩, hprog _ (List.getElem_mem hlen)⟩
  · rw [h0]
    rfl
  · rw [List.getElem?_eq_getElem hlen, Option.map_some]

/-- Settles O9: `exec_resultOf_of_wf` for the write, and the end of the cycle starts from the state that
the write left. -/
theorem everyInstructionWritesExactlyItsDestination :
    Obligations.EveryInstructionWritesExactlyItsDestination := by
  refine ⟨fun i s hw => exec_resultOf_of_wf s hw, fun i s p n hw h _ => ?_⟩
  obtain ⟨t, u, hexec, hstep, -, hinc, -⟩ := step_cycleEnd_of_wf h hw
  exact ⟨t, u, hexec, hstep, hinc⟩

/-- Settles O15: the one test of a cycle is that of `CycleEnd`, and the first cycle of a well-formed
program finds an instruction at address 0. -/
theorem haltingTestFollowsTheIncrement : Obligations.HaltingTestFollowsTheIncrement := by
  refine ⟨fun s p n i h hw => ?_, fun s p hrun hreq hp h0 hw => ?_⟩
  · obtain ⟨t, u, hexec, hstep, hsame, hend⟩ := step_cycleEnd_of_wf h hw
    obtain ⟨hrun, hreq, -⟩ := h
    obtain ⟨htStatus, -, -, -, htProg, htReq⟩ := hsame
    obtain ⟨hhalted, hrunning⟩ := status_iff_of_cycleEnd hend (htStatus.trans hrun)
    obtain ⟨hinc, -, -, -, -, -, -, huReq⟩ := hend
    rw [plen_congr htProg] at hhalted hrunning
    refine ⟨t, u, hexec, hstep, hinc, hhalted, hrunning, fun hu => ?_⟩
    have hnone : u.request = none := huReq.trans (htReq.trans hreq)
    exact step_of_not_running (by rw [hu]; decide) hnone
  · obtain ⟨i, h, hwi⟩ := aboutToExecute_first hrun hreq hp h0 hw
    obtain ⟨t, u, hexec, hstep, -, hend⟩ := step_cycleEnd_of_wf h hwi
    obtain ⟨-, -, -, -, hi⟩ := h
    exact ⟨i, t, u, hi, hexec, hstep, hend⟩

/-- Settles O17: the operand values are those of the state before the cycle's increment, in which the
pointer register holds the instruction's own address. -/
theorem instructionReadsItsOwnAddress : Obligations.InstructionReadsItsOwnAddress := by
  intro s p n i h hw
  obtain ⟨c, a, b, t, hC, ha, hb, hexec, hresult, -⟩ := exec_resultOf_of_wf s hw
  obtain ⟨-, -, -, haddr, -⟩ := h
  refine ⟨c, a, b, t, hC, hexec, ha, hb, fun hrole hfield => ?_, fun hrole hfield => ?_, hresult⟩
  · rw [hrole, hfield] at ha
    rw [eq_of_operandValue_reg ha, haddr]
  · rw [hrole, hfield] at hb
    rw [eq_of_operandValue_reg hb, haddr]

end Sys2Proof.Machine
end

section
/-! SUPPORT. A run that has ended: the step that keeps its state and the values that the host reads
(70_reset_and_hazards.md R196, 10_state.md R31). -/

namespace Sys2Proof.Machine

/-- Clearing the request where none waits changes nothing. -/
theorem State.clear_request_of_none {s : State} (h : s.request = none) :
    { s with request := none } = s := by
  cases s
  cases h
  rfl

/-- Outside `IDLE` a launch that waits is dropped: its precondition does not hold (R191). -/
theorem step_of_launch_not_idle {s : State} (hs : s.status ≠ .idle) (hr : s.request = some .launch) :
    step s = .next { s with request := none } := by
  rw [step_of_launch hr, takeLaunch_of_problem fun h => hs h.1]

/-- In `HALTED` and in `FAULTED` neither a launch is possible nor does a cycle run. -/
theorem not_idle_and_not_running_of_ended {s : State} (h : s.status = .halted ∨ s.status = .faulted) :
    s.status ≠ .idle ∧ s.status ≠ .running := by
  obtain h | h := h
  · rw [h]
    decide
  · rw [h]
    decide

/-- A step of a run that has ended, with no reset waiting, does no more than drop a launch that waits. -/
theorem step_of_ended {s : State} (h : s.status = .halted ∨ s.status = .faulted)
    (hr : s.request ≠ some .reset) : step s = .next { s with request := none } := by
  obtain ⟨hidle, hrun⟩ := not_idle_and_not_running_of_ended h
  cases hreq : s.request with
  | none => rw [State.clear_request_of_none hreq, step_of_not_running hrun hreq]
  | some r =>
    cases r with
    | reset => exact absurd hreq hr
    | launch => exact step_of_launch_not_idle hidle hreq

/-- The values that the host reads are those of the registers, in order. -/
theorem State.values_getElem (s : State) (k : Fin NREG) : s.values[k.val] = (s.x k).toInt :=
  match k with
  | 0 => rfl
  | 1 => rfl
  | 2 => rfl
  | 3 => rfl
  | 4 => rfl
  | 5 => rfl

theorem State.snapshot_of_halted {s : State} (h : s.status = .halted) : s.snapshot = some s.values :=
  if_pos h

/-- Settles O24: a request that waits can only be a launch, whose precondition fails outside `IDLE`, and
the snapshot in `HALTED` is `State.values`. -/
theorem endedRunsKeepTheirState : Obligations.EndedRunsKeepTheirState :=
  ⟨fun _ => step_of_ended, fun s h => ⟨s.values, State.snapshot_of_halted h, s.values_getElem⟩⟩

end Sys2Proof.Machine
end

section
/-! SUPPORT. The binary word: decode and encode are inverse, and which bits each field is
(30_encoding.md R61, R62, R77). -/

namespace Sys2Proof.Machine

open Safety

/-- Settles O35: the four fields of the encoded tuple are read back, and a field that passes the load check
keeps its value in `XLEN` bits. -/
theorem decodeOfEncode : Obligations.DecodeOfEncode := by
  intro i h
  obtain ⟨hC, hA, -⟩ := wf_iff.1 h
  obtain ⟨hop, hdA, -, hdC⟩ := decode_fields (encode i)
  obtain ⟨heop, heC, heA, -⟩ := encode_fields hC
  refine eq_of_fields (hop.trans heop) ?_ (decode_encode_B h) (hdC.trans heC)
  rw [hdA, heA, isLiteral_toInt (isLiteral_of_fieldOk hA)]

/-- Settles O36: `encode` adds up the four fields that `decode` took the word apart into. -/
theorem encodeOfDecode : Obligations.EncodeOfDecode := by
  intro W
  obtain ⟨hop, hA, hB, hC⟩ := decode_fields W
  unfold encode
  rw [hop, hA, hB, hC, Int.toNat_natCast, patternNat_toInt, patternNat_toInt, ← word_eq_fields,
    BitVec.ofNat_toNat, BitVec.setWidth_eq]

/-- A word whose bits are the low `XLEN` bits of `n` has the value that `n` wraps to. -/
theorem wrapsTo_of_toNat_eq_mod {n : Nat} {w : Word} (h : w.toNat = n % 2 ^ XLEN) :
    WrapsTo (n : Int) w.toInt := by
  have hw : w = wrap n := by
    apply BitVec.eq_of_toNat_eq
    rw [h, wrap, BitVec.ofInt_natCast, BitVec.toNat_ofNat]
  rw [hw]
  exact wrapsTo_wrap _

/-- Settles O37: each field of the decoded word is a range of its bits; `A` and `B` are those bits in
two's complement. -/
theorem decodeReadsTheFieldsAtTheirPlaces : Obligations.DecodeReadsTheFieldsAtTheirPlaces := by
  intro W
  obtain ⟨hop, hA, hB, hC⟩ := decode_fields W
  refine ⟨hop.trans (opField_toNat W), ?_, ?_, ?_⟩
  · rw [hC, cField_toNat]
  · rw [hA]
    exact wrapsTo_of_toNat_eq_mod (aField_toNat W)
  · rw [hB]
    exact wrapsTo_of_toNat_eq_mod (bField_toNat W)

/-- Settles O38, by evaluation of the eight words. -/
theorem decodeSanityWords : Obligations.DecodeSanityWords := by
  refine ⟨?_, ?_, ?_, ?_, ?_, ?_, ?_, ?_⟩ <;> decide

end Sys2Proof.Machine
end

section
/-! SUPPORT. Addition, multiplication and the bitwise operations (40_arithmetic.md, 41_bitwise.md): what
each operation computes, and the destination write that carries it. -/

namespace Sys2Proof.Machine

open Safety

/-- What `addr` means (R91). -/
theorem exec_addr_eq_execTwo (A B C : Int) (s : State) :
    exec (.addr A B C) s = execTwo add (.reg A) (.reg B) C s := rfl

/-- What `addi` means (R92). -/
theorem exec_addi_eq_execTwo (A B C : Int) (s : State) :
    exec (.addi A B C) s = execTwo add (.reg A) (.lit B) C s := rfl

/-- What `mulr` means (R93). -/
theorem exec_mulr_eq_execTwo (A B C : Int) (s : State) :
    exec (.mulr A B C) s = execTwo mul (.reg A) (.reg B) C s := rfl

/-- What `muli` means (R94). -/
theorem exec_muli_eq_execTwo (A B C : Int) (s : State) :
    exec (.muli A B C) s = execTwo mul (.reg A) (.lit B) C s := rfl

/-- What `banr` means (R101). -/
theorem exec_banr_eq_execTwo (A B C : Int) (s : State) :
    exec (.banr A B C) s = execTwo bitAnd (.reg A) (.reg B) C s := rfl

/-- What `bani` means (R102). -/
theorem exec_bani_eq_execTwo (A B C : Int) (s : State) :
    exec (.bani A B C) s = execTwo bitAnd (.reg A) (.lit B) C s := rfl

/-- What `borr` means (R103). -/
theorem exec_borr_eq_execTwo (A B C : Int) (s : State) :
    exec (.borr A B C) s = execTwo bitOr (.reg A) (.reg B) C s := rfl

/-- What `bori` means (R104). -/
theorem exec_bori_eq_execTwo (A B C : Int) (s : State) :
    exec (.bori A B C) s = execTwo bitOr (.reg A) (.lit B) C s := rfl

theorem wrapsTo_add (u v : Word) : WrapsTo (u.toInt + v.toInt) (add u v).toInt := wrapsTo_wrap _

theorem wrapsTo_mul (u v : Word) : WrapsTo (u.toInt * v.toInt) (mul u v).toInt := wrapsTo_wrap _

theorem bitAnd_getLsbD (u v : Word) (n : Nat) :
    (bitAnd u v).getLsbD n = (u.getLsbD n && v.getLsbD n) := BitVec.getLsbD_and

theorem bitOr_getLsbD (u v : Word) (n : Nat) :
    (bitOr u v).getLsbD n = (u.getLsbD n || v.getLsbD n) := BitVec.getLsbD_or

/-- A register write, with what holds of the written word and the frame, in the words of the statements. -/
theorem exists_next_of_setX {o : Host.Outcome State Fault Refusal} {s : State} {c : Fin NREG} {w : Word}
    (P : Word → Prop) (ho : o = .next (s.setX c w)) (hw : P w) :
    ∃ t, o = .next t ∧ P (t.x c) ∧ OnlyRegister c s t := by
  refine ⟨_, ho, ?_, onlyRegister_setX s c w⟩
  rw [State.x_setX_same]
  exact hw

/-- Settles O1: both opcodes write `add` of the operand values, and a legal literal keeps its value. -/
theorem addFamilyResult : Obligations.AddFamilyResult := by
  refine ⟨fun a b c s => ?_, fun a c B s hB => ?_⟩
  · rw [exec_addr_eq_execTwo]
    exact exists_next_of_setX (fun w => WrapsTo _ w.toInt) (execTwo_reg_reg add a b c s)
      (wrapsTo_add _ _)
  · rw [exec_addi_eq_execTwo]
    refine exists_next_of_setX (fun w => WrapsTo _ w.toInt) (execTwo_reg_lit add a c s hB) ?_
    have h := wrapsTo_add (s.x a) (BitVec.ofInt XLEN B)
    rwa [isLiteral_toInt hB] at h

/-- Settles O2: both opcodes write `mul` of the operand values, and a legal literal keeps its value. -/
theorem multiplyFamilyResult : Obligations.MultiplyFamilyResult := by
  refine ⟨fun a b c s => ?_, fun a c B s hB => ?_⟩
  · rw [exec_mulr_eq_execTwo]
    exact exists_next_of_setX (fun w => WrapsTo _ w.toInt) (execTwo_reg_reg mul a b c s)
      (wrapsTo_mul _ _)
  · rw [exec_muli_eq_execTwo]
    refine exists_next_of_setX (fun w => WrapsTo _ w.toInt) (execTwo_reg_lit mul a c s hB) ?_
    have h := wrapsTo_mul (s.x a) (BitVec.ofInt XLEN B)
    rwa [isLiteral_toInt hB] at h

/-- Settles O3: both opcodes write `bitAnd` of the operand values. -/
theorem andFamilyResult : Obligations.AndFamilyResult := by
  refine ⟨fun a b c s => ?_, fun a c B s hB => ?_⟩
  · rw [exec_banr_eq_execTwo]
    exact exists_next_of_setX (fun w => ∀ n, w.getLsbD n = ((s.x a).getLsbD n && (s.x b).getLsbD n))
      (execTwo_reg_reg bitAnd a b c s) (bitAnd_getLsbD _ _)
  · rw [exec_bani_eq_execTwo]
    exact exists_next_of_setX
      (fun w => ∀ n, w.getLsbD n = ((s.x a).getLsbD n && (BitVec.ofInt XLEN B).getLsbD n))
      (execTwo_reg_lit bitAnd a c s hB) (bitAnd_getLsbD _ _)

/-- Settles O4: both opcodes write `bitOr` of the operand values. -/
theorem orFamilyResult : Obligations.OrFamilyResult := by
  refine ⟨fun a b c s => ?_, fun a c B s hB => ?_⟩
  · rw [exec_borr_eq_execTwo]
    exact exists_next_of_setX (fun w => ∀ n, w.getLsbD n = ((s.x a).getLsbD n || (s.x b).getLsbD n))
      (execTwo_reg_reg bitOr a b c s) (bitOr_getLsbD _ _)
  · rw [exec_bori_eq_execTwo]
    exact exists_next_of_setX
      (fun w => ∀ n, w.getLsbD n = ((s.x a).getLsbD n || (BitVec.ofInt XLEN B).getLsbD n))
      (execTwo_reg_lit bitOr a c s hB) (bitOr_getLsbD _ _)

/-- A value and its bits as a number leave the same remainder modulo a power of two up to `2^XLEN`. -/
theorem toInt_emod_two_pow (u : Word) {k : Nat} (hk : k ≤ XLEN) :
    u.toInt % 2 ^ k = ((u.toNat % 2 ^ k : Nat) : Int) := by
  have hdvd : (2 ^ k : Int) ∣ ((2 ^ XLEN : Nat) : Int) := by
    push_cast
    exact pow_dvd_pow 2 hk
  rw [BitVec.toInt_eq_toNat_bmod, ← Int.emod_emod_of_dvd _ hdvd, Int.bmod_emod,
    Int.emod_emod_of_dvd _ hdvd]
  push_cast
  rfl

/-- A mask `2^k - 1`, `k < XLEN`, is a legal literal. -/
theorem isLiteral_mask {k : Nat} (hk : k < XLEN) : IsLiteral (2 ^ k - 1) := by
  have h1 : (1 : Int) ≤ 2 ^ k := one_le_pow₀ (by decide)
  have h2 : (2 : Int) ^ k ≤ 2 ^ (XLEN - 1) := pow_le_pow_right₀ (by decide) (by omega)
  rw [IsLiteral, min_eq, max_eq]
  omega

/-- AND with the mask keeps the low `k` bits. -/
theorem bitAnd_mask_toNat (u : Word) {k : Nat} (hk : k < XLEN) :
    (bitAnd u (BitVec.ofInt XLEN (2 ^ k - 1))).toNat = u.toNat % 2 ^ k := by
  have h1 : 1 ≤ 2 ^ k := Nat.one_le_two_pow
  have hlt : 2 ^ k - 1 < 2 ^ XLEN :=
    lt_of_le_of_lt (Nat.sub_le _ _) (Nat.pow_lt_pow_right (by decide) hk)
  have hmask : BitVec.ofInt XLEN (2 ^ k - 1) = BitVec.ofNat XLEN (2 ^ k - 1) := by
    rw [← BitVec.ofInt_natCast]
    push_cast [Nat.cast_sub h1]
    rfl
  rw [hmask, bitAnd, BitVec.toNat_and, BitVec.toNat_ofNat, Nat.mod_eq_of_lt hlt,
    Nat.and_two_pow_sub_one_eq_mod]

/-- AND with the mask is the remainder, also of a negative value: the result has its sign bit clear. -/
theorem bitAnd_mask_toInt (u : Word) {k : Nat} (hk : k < XLEN) :
    (bitAnd u (BitVec.ofInt XLEN (2 ^ k - 1))).toInt = u.toInt % 2 ^ k := by
  have hpos : 0 < 2 ^ k := Nat.two_pow_pos k
  have hsign : 2 * (u.toNat % 2 ^ k) < 2 ^ XLEN :=
    calc 2 * (u.toNat % 2 ^ k) < 2 * 2 ^ k := by have := Nat.mod_lt u.toNat hpos; omega
      _ = 2 ^ (k + 1) := by rw [pow_succ, Nat.mul_comm]
      _ ≤ 2 ^ XLEN := Nat.pow_le_pow_right (by decide) hk
  rw [toInt_emod_two_pow u hk.le, ← bitAnd_mask_toNat u hk]
  apply BitVec.toInt_eq_toNat_of_lt
  rwa [bitAnd_mask_toNat u hk]

/-- Settles O5: `bani` with a mask, which is a legal literal, writes the remainder. -/
theorem andWithMaskReducesModulo : Obligations.AndWithMaskReducesModulo := by
  intro a c k s hk
  rw [exec_bani_eq_execTwo]
  refine ⟨_, execTwo_reg_lit bitAnd a c s (isLiteral_mask hk), ?_⟩
  rw [State.x_setX_same, bitAnd_mask_toInt _ hk]

theorem equalTo_comm (u v : Word) : equalTo u v = equalTo v u :=
  congrArg truth (decide_eq_decide.2 eq_comm)

/-- An opcode whose operation is symmetric gives the same outcome with its operands exchanged. -/
theorem execTwo_comm {f : Word → Word → Word} (hf : ∀ u v, f u v = f v u) (a b : Operand) (C : Int)
    (s : State) : execTwo f a b C s = execTwo f b a C s := by
  have hvalue : ((a.value s).bind fun u => (b.value s).map fun v => f u v) =
      (b.value s).bind fun v => (a.value s).map fun u => f v u := by
    cases a.value s <;> cases b.value s <;> simp [hf]
  unfold execTwo
  rw [hvalue, Bool.and_comm]

/-- Settles O8: the two opcodes are `equalTo` of the same two operands in the two orders. -/
theorem equalityIsSymmetricInItsTwoOpcodes : Obligations.EqualityIsSymmetricInItsTwoOpcodes := by
  intro k r c s
  rw [exec_eqir_eq_execTwo, exec_eqri_eq_execTwo]
  exact execTwo_comm equalTo_comm _ _ _ _

/-- Settles O10: the index test decides between REG_INDEX and one register write. -/
theorem registerIndexFaultIsTakenExactlyWhenAnIndexIsBad :
    Obligations.RegisterIndexFaultIsTakenExactlyWhenAnIndexIsBad := by
  refine fun i s => ⟨fun hbad => ?_, fun hgood t ht => ?_⟩
  · rw [namesRegisters_iff, Bool.not_eq_true] at hbad
    exact exec_of_bad_index s hbad
  · rw [namesRegisters_iff] at hgood
    obtain ⟨-, -, c, a, b, -, -, -, hexec⟩ | ⟨hbad, -⟩ | ⟨-, -, hexec⟩ := exec_cases i s
    · rw [hexec] at ht
      cases ht
      exact ⟨rfl, rfl⟩
    · rw [hgood] at hbad
      cases hbad
    · rw [hexec] at ht
      cases ht

/-- A literal operand outside `MIN .. MAX` fails the range test of its instruction. -/
theorem literalsOk_eq_false {i : Instr}
    (h : (i.roleA = .lit ∧ ¬ IsLiteral i.A) ∨ (i.roleB = .lit ∧ ¬ IsLiteral i.B)) :
    i.literalsOk = false := by
  have hfield {v : Int} (hv : ¬ IsLiteral v) : fieldLiteralOk .lit v = false :=
    Bool.eq_false_iff.2 fun e => hv (literalOk_iff.1 e)
  obtain ⟨hrole, hv⟩ | ⟨hrole, hv⟩ := h
  · rw [Instr.literalsOk, hrole, hfield hv, Bool.false_and]
  · rw [Instr.literalsOk, hrole, hfield hv, Bool.and_false]

/-- Settles O11: the index test passes, so the range test decides. -/
theorem literalOutOfRangeIsRefused : Obligations.LiteralOutOfRangeIsRefused :=
  fun _ s hnames hlit => exec_of_bad_literal s (namesRegisters_iff.1 hnames) (literalsOk_eq_false hlit)

end Sys2Proof.Machine
end

section
/-! SUPPORT. The flow of a run: where the pointer goes and what the status is after one cycle
(44_processor_cycle.md sections 1 to 3), and the two faults. -/

namespace Sys2Proof.Machine

open Safety

/-- What stands of a running block after one cycle whose instruction completed, but for its registers: the
launch parameters, and the status that the halting test decides. -/
structure AfterCycle (p : Fin NREG) (s u : State) : Prop where
  ip : u.ip = some p
  prog : u.prog = s.prog
  request : u.request = none
  status : u.status = if (s.plen : Int) ≤ (u.x p).toInt then .halted else .running

/-- A block that wrote one register and advanced is after its cycle. -/
theorem afterCycle_advance_setX {s : State} {p : Fin NREG} {n : Nat} {i : Instr}
    (h : AboutToExecute s p n i) (c : Fin NREG) (v : Word) :
    AfterCycle p s (advance p (s.setX c v)) := by
  obtain ⟨hrun, hreq, hp, -, -⟩ := h
  refine ⟨?_, ?_, ?_, ?_⟩
  · rw [advance_ip, State.setX_ip, hp]
  · rw [advance_prog, State.setX_prog]
  · rw [advance_request, State.setX_request, hreq]
  · rw [advance_status, State.setX_plen, State.setX_status, hrun]

/-- A block about to execute an instruction that writes one register writes it and advances. -/
theorem step_of_exec_setX {s : State} {p c : Fin NREG} {n : Nat} {i : Instr} {v : Word}
    (h : AboutToExecute s p n i) (hexec : exec i s = .next (s.setX c v)) :
    step s = .next (advance p (s.setX c v)) := by
  have ⟨hrun, _⟩ := h
  have hstatus : (s.setX c v).status ≠ .faulted := by
    rw [State.setX_status, hrun]
    decide
  rw [step_of_aboutToExecute h, hexec, mapNext, finish_of_ne hstatus]

/-- A running block whose pointer is below `PLEN` is about to execute a slot of its program. -/
theorem exists_aboutToExecute {s : State} {p : Fin NREG} (hrun : s.status = .running)
    (hreq : s.request = none) (hp : s.ip = some p) (h0 : 0 ≤ (s.x p).toInt)
    (hlt : (s.x p).toInt < s.plen) :
    ∃ c ∈ s.prog, AboutToExecute s p (s.x p).toInt.toNat c.instr := by
  cases hf : fetch s (s.x p).toInt with
  | none =>
    have hout := fetch_eq_none.1 hf
    omega
  | some i =>
    obtain ⟨-, -, c, hc, rfl⟩ := fetch_eq_some hf
    exact ⟨c, hc, aboutToExecute_of_fetch hrun hreq hp hf⟩

/-- A running block whose pointer is outside `0 .. PLEN-1` takes FETCH_RANGE. -/
theorem step_of_pointer_out_of_range {s : State} {p : Fin NREG} (hrun : s.status = .running)
    (hreq : s.request = none) (hp : s.ip = some p)
    (h : (s.x p).toInt < 0 ∨ (s.plen : Int) ≤ (s.x p).toInt) :
    step s = .next (raise .fetchRange s) := by
  rw [step_of_running hrun hreq, cycle_of_no_fetch hp (fetch_eq_none.2 h)]

namespace AfterCycle

variable {p : Fin NREG} {s u : State}

theorem plen (h : AfterCycle p s u) : u.plen = s.plen := plen_congr h.prog

/-- A pointer at or past `PLEN` has halted the block. -/
theorem halted (h : AfterCycle p s u) (hle : (s.plen : Int) ≤ (u.x p).toInt) : u.status = .halted := by
  rw [h.status, if_pos hle]

/-- A pointer below `PLEN`, a negative one too, leaves the block running. -/
theorem running (h : AfterCycle p s u) (hlt : (u.x p).toInt < s.plen) : u.status = .running := by
  rw [h.status, if_neg (by omega)]

/-- A pointer in `0 .. PLEN-1` is where the block executes next. -/
theorem aboutToExecute (h : AfterCycle p s u) (h0 : 0 ≤ (u.x p).toInt)
    (hlt : (u.x p).toInt < s.plen) : ∃ j, AboutToExecute u p (u.x p).toInt.toNat j := by
  obtain ⟨c, -, hc⟩ :=
    exists_aboutToExecute (h.running hlt) h.request h.ip h0 (by rw [h.plen]; exact hlt)
  exact ⟨_, hc⟩

/-- A negative pointer faults in the next cycle. -/
theorem step_of_neg (h : AfterCycle p s u) (hneg : (u.x p).toInt < 0) :
    step u = .next (raise .fetchRange u) :=
  step_of_pointer_out_of_range (h.running (by omega)) h.request h.ip (.inl hneg)

end AfterCycle

theorem isLiteral_neg_one : IsLiteral (-1) := by
  rw [IsLiteral, min_eq, max_eq]
  have := eight_le_half
  omega

theorem min_le_neg_one : MIN ≤ -1 := isLiteral_neg_one.1

/-- An address of the program and the address after it are register values. -/
theorem wrap_succ_toInt {s : State} {n : Nat} (hlt : n < s.plen) (hmax : s.plen ≤ PLEN_MAX) :
    (wrap ((n : Int) + 1)).toInt = n + 1 := by
  have hmin := min_le_neg_one
  have hM := plenMax_le_max
  exact wrap_toInt_of_range (by omega) (by omega)

/-- The step of a well-formed instruction that does not write the pointer leaves the next address in it. -/
theorem step_sequential {s : State} {p : Fin NREG} {n : Nat} {i : Instr} (h : AboutToExecute s p n i)
    (hw : WellFormed i) (hmax : s.plen ≤ PLEN_MAX) (hC : i.C ≠ reg p) :
    ∃ u, step s = .next u ∧ AfterCycle p s u ∧ (u.x p).toInt = n + 1 := by
  obtain ⟨c, v, hc, -, hstep⟩ := step_of_wf h hw
  have ⟨_, _, _, haddr, _⟩ := h
  have hne : p ≠ c := by
    rintro rfl
    exact hC hc
  refine ⟨_, hstep, afterCycle_advance_setX h c v, ?_⟩
  rw [advance_x_same, State.x_setX_of_ne s c v hne, haddr]
  exact wrap_succ_toInt (aboutToExecute_lt h) hmax

/-- The points of a straight-line run: the block `u` runs the program of `s` at the address `k`. -/
structure RunsAt (p : Fin NREG) (s : State) (k : Nat) (u : State) : Prop where
  status : u.status = .running
  request : u.request = none
  ip : u.ip = some p
  prog : u.prog = s.prog
  pointer : (u.x p).toInt = k

/-- One step of a straight-line run goes on to the next address and ends the run at `PLEN`. -/
theorem RunsAt.step {p : Fin NREG} {s u : State} {k : Nat} (h : RunsAt p s k u)
    (hw : WellFormedLaunch s) (hnever : NeverWrites p s.prog) (hk : k < s.plen) :
    ∃ w, Machine.step u = .next w ∧ AfterCycle p s w ∧ (w.x p).toInt = k + 1 := by
  obtain ⟨-, -, -, hmax, hwf⟩ := hw
  have hplen : u.plen = s.plen := plen_congr h.prog
  obtain ⟨c, hc, hexec⟩ := exists_aboutToExecute h.status h.request h.ip (by rw [h.pointer]; omega)
    (by rw [h.pointer, hplen]; omega)
  rw [h.pointer, Int.toNat_natCast] at hexec
  rw [h.prog] at hc
  obtain ⟨w, hstep, hafter, hx⟩ := step_sequential hexec (hwf c hc) (hplen ▸ hmax) (hnever c hc)
  refine ⟨w, hstep, ⟨hafter.ip, hafter.prog.trans h.prog, hafter.request, ?_⟩, hx⟩
  rw [hafter.status, hplen]

/-- After `k < PLEN` steps a straight-line run is at the address `k`. -/
theorem run_runsAt {p : Fin NREG} {s : State} (h : RunsAt p s 0 s) (hw : WellFormedLaunch s)
    (hnever : NeverWrites p s.prog) (k : Nat) (hk : k < s.plen) :
    ∃ u, run k s = .next u ∧ RunsAt p s k u := by
  induction k with
  | zero => exact ⟨s, run_zero s, h⟩
  | succ k ih =>
    obtain ⟨u, hrun, hu⟩ := ih (by omega)
    obtain ⟨w, hstep, hafter, hx⟩ := hu.step hw hnever (by omega)
    have hx' : (w.x p).toInt = ((k + 1 : Nat) : Int) := by rw [hx]; rfl
    exact ⟨w, run_snoc hrun hstep, hafter.running (by omega), hafter.request, hafter.ip, hafter.prog,
      hx'⟩

/-- Settles O21: `RunsAt` holds at every address below `PLEN`, by induction on the number of steps, and
the step from the last address halts. -/
theorem straightLineRunHaltsAfterPlenSteps : Obligations.StraightLineRunHaltsAfterPlenSteps := by
  intro s p hrun hreq hp h0 hw hnever
  have hstart : RunsAt p s 0 s := ⟨hrun, hreq, hp, rfl, by rw [h0]; rfl⟩
  have hpoints := run_runsAt hstart hw hnever
  have ⟨_, _, hlen, _, _⟩ := hw
  refine ⟨fun k hk => ?_, ?_⟩
  · obtain ⟨u, hu, hat⟩ := hpoints k hk
    exact ⟨u, hu, hat.status, hat.pointer⟩
  · obtain ⟨m, hm⟩ : ∃ m, s.plen = m + 1 := Nat.exists_eq_succ_of_ne_zero (by omega)
    obtain ⟨u, hu, hat⟩ := hpoints m (by omega)
    obtain ⟨w, hstep, hafter, hx⟩ := hat.step hw hnever (by omega)
    refine ⟨w, ?_, hafter.halted (by omega), by omega⟩
    rw [hm]
    exact run_snoc hu hstep

/-- Settles O12: the slot holds the instruction in either form, and the block is about to execute it. -/
theorem stepRunsTheDecodedInstruction : Obligations.StepRunsTheDecodedInstruction := by
  intro s p n c i hrun hreq hp hn hc hform hw
  have hi : c.instr = i := by
    obtain rfl | ⟨W, rfl, hW⟩ := hform
    · rfl
    · exact hW
  have h : AboutToExecute s p n i := ⟨hrun, hreq, hp, hn, by rw [hc, Option.map_some, hi]⟩
  obtain ⟨t, u, hexec, hstep, -, hend⟩ := step_cycleEnd_of_wf h hw
  exact ⟨t, u, hexec, hstep, hend⟩

/-- Settles O13: the destination is the pointer register itself, so the cycle writes no other. -/
theorem pointerWriteIsAJumpToOneMore : Obligations.PointerWriteIsAJumpToOneMore := by
  intro s p n i h hw hC
  obtain ⟨c, v, hc, hexec, hstep⟩ := step_of_wf h hw
  obtain rfl : p = c := reg_injective (hC.symm.trans hc)
  refine ⟨_, _, hexec, hstep, ?_, fun k hk => ?_, (afterCycle_advance_setX h p v).status⟩
  · rw [advance_x_same]
    exact wrapsTo_wrap _
  · rw [advance_x_of_ne _ _ hk, State.x_setX_of_ne s p v hk]

/-- Settles O14, by `step_sequential`. -/
theorem sequentialFlow : Obligations.SequentialFlow := by
  intro s p n i h hw hmax hC
  obtain ⟨u, hstep, hafter, hx⟩ := step_sequential h hw hmax hC
  refine ⟨u, hstep, hx, ?_⟩
  rw [hafter.status, hx]
  norm_cast

/-- Settles O16: the cycle is one register write and the end of the cycle, which writes the pointer. -/
theorem cycleTouchesOnlyDestinationAndPointer :
    Obligations.CycleTouchesOnlyDestinationAndPointer := by
  intro s p n i h hw
  obtain ⟨c, v, hc, -, hstep⟩ := step_of_wf h hw
  refine ⟨_, hstep, fun k hkC hkp => ?_, ?_⟩
  · have hkc : k ≠ c := by
      rintro rfl
      exact hkC hc.symm
    rw [advance_x_of_ne _ _ hkp, State.x_setX_of_ne s c v hkc]
  · simp

/-- Settles O18: the three ranges of the new pointer, by `AfterCycle`. -/
theorem transferHasThreeOutcomes : Obligations.TransferHasThreeOutcomes := by
  intro s p n i h hw
  obtain ⟨c, v, -, -, hstep⟩ := step_of_wf h hw
  have hafter := afterCycle_advance_setX h c v
  exact ⟨_, hstep, hafter.aboutToExecute, hafter.halted,
    fun hneg => ⟨hafter.running (by omega), hafter.step_of_neg hneg⟩⟩

/-- Settles O19: `A` is a legal literal below `MAX`, so the increment of the written value does not wrap. -/
theorem setiIntoThePointerJumps : Obligations.SetiIntoThePointerJumps := by
  intro s p n A B h h1 hA
  have hmin := min_le_neg_one
  have hlit : IsLiteral A := ⟨by omega, by omega⟩
  have hstep := step_of_exec_setX h (exec_seti_next B p s hlit)
  have hafter := afterCycle_advance_setX h p (BitVec.ofInt XLEN A)
  have hx : ((advance p (s.setX p (BitVec.ofInt XLEN A))).x p).toInt = A + 1 := by
    rw [advance_x_same, State.x_setX_same, isLiteral_toInt hlit]
    exact wrap_toInt_of_range (by omega) (by omega)
  refine ⟨_, hstep, hx, fun hle => hafter.halted (hx ▸ hle), fun hlt => ?_⟩
  rw [← hx] at hlt ⊢
  exact hafter.aboutToExecute (by omega) hlt

/-- The end of a cycle that leaves the pointer in the program is the increment alone. -/
theorem advance_of_lt {p : Fin NREG} {t : State}
    (h : (wrap ((t.x p).toInt + 1)).toInt < t.plen) : advance p t = increment p t := by
  unfold advance
  obtain ⟨hle, -⟩ | ⟨-, e⟩ := haltTest_cases (increment p t) p
  · rw [increment_x_same, increment_plen] at hle
    omega
  · exact e

/-- An increment after a write of the pointer register makes one write. -/
theorem increment_setX_same (p : Fin NREG) (s : State) (v : Word) :
    increment p (s.setX p v) = s.setX p (wrap (v.toInt + 1)) := by
  rw [increment, State.x_setX_same, State.setX_setX]

/-- One less and then one more, of a value that is not negative: neither wraps. -/
theorem wrap_add_neg_one_succ {u : Word} (h0 : 0 ≤ u.toInt) :
    wrap ((add u (BitVec.ofInt XLEN (-1))).toInt + 1) = u := by
  have hmin := min_le_neg_one
  obtain ⟨-, hmax⟩ := word_range u
  have hadd : (add u (BitVec.ofInt XLEN (-1))).toInt = u.toInt - 1 := by
    rw [add, isLiteral_toInt isLiteral_neg_one]
    exact wrap_toInt_of_range (by omega) (by omega)
  rw [hadd, Int.sub_add_cancel, wrap_self]

/-- `addi ip -1 ip` steps to the very same state. -/
theorem step_of_selfJump {s : State} {p : Fin NREG} {n : Nat}
    (h : AboutToExecute s p n (.addi (reg p) (-1) (reg p))) : step s = .next s := by
  have hexec := execTwo_reg_lit add p p s isLiteral_neg_one
  rw [← exec_addi_eq_execTwo] at hexec
  have hn := aboutToExecute_lt h
  have ⟨_, _, _, haddr, _⟩ := h
  have hback := wrap_add_neg_one_succ (u := s.x p) (by omega)
  rw [step_of_exec_setX h hexec, advance_of_lt, increment_setX_same, hback, State.setX_self]
  rw [State.x_setX_same, hback, State.setX_plen]
  omega

/-- Settles O20: the one step answers the same state, so every run does, by induction on its length. -/
theorem selfJumpRunsForEver : Obligations.SelfJumpRunsForEver := by
  intro s p n h k
  induction k with
  | zero => exact run_zero s
  | succ k ih => rw [run_succ (step_of_selfJump h), ih]

/-- Settles O22: the range test comes first. -/
theorem fetchOutOfRangeFaults : Obligations.FetchOutOfRangeFaults :=
  fun _ _ hrun hreq hp h => step_of_pointer_out_of_range hrun hreq hp h

/-- Settles O23: the execute phase raises REG_INDEX, after which the cycle does nothing more. -/
theorem registerIndexFaultIsPrecise : Obligations.RegisterIndexFaultIsPrecise := by
  intro s p n i h hbad
  rw [namesRegisters_iff, Bool.not_eq_true] at hbad
  have ⟨_, _, _, haddr, _⟩ := h
  refine ⟨raise .regIndex s, ?_, rfl, ?_⟩
  · rw [step_of_aboutToExecute h, exec_of_bad_index s hbad, mapNext, finish_raise]
  · rw [raise_x, haddr]

/-- An `IPSEL` of 6 or 7 binds no register. -/
theorem ip_eq_none {s : State} (h : 6 ≤ s.ipsel.toNat) : s.ip = none :=
  dif_neg (Nat.not_lt.2 h)

theorem cycle_of_no_ip {s : State} (h : s.ip = none) : cycle s = .refused .ipselIllegal := by
  simp [cycle, h]

/-- Settles O25: the cycle finds no pointer register. -/
theorem illegalPointerBindingIsRefused : Obligations.IllegalPointerBindingIsRefused := by
  intro s hrun hreq h
  rw [step_of_running hrun hreq, cycle_of_no_ip (ip_eq_none h)]

end Sys2Proof.Machine
end

section
/-! SUPPORT. Reset, launch, the status over a step, and what the host may do and read
(70_reset_and_hazards.md section 1, 10_state.md section 8). -/

namespace Sys2Proof.Machine

open Safety

/-- Settles O26: taking a reset answers the state of 10_state.md R36. -/
theorem resetFromAnyState : Obligations.ResetFromAnyState :=
  fun _ hreq => ⟨State.reset, step_of_reset hreq, reset_x, rfl, rfl, rfl⟩

/-- The step that takes a launch whose precondition holds. -/
theorem step_of_launch_ok {s : State} (hreq : s.request = some .launch) (hidle : s.status = .idle)
    (hw : WellFormedLaunch s) : step s = .next { s with status := .running, request := none } := by
  rw [step_of_launch hreq, takeLaunch_of_ok hidle hw]

/-- Settles O27, by `step_of_launch_ok`. -/
theorem wellFormedLaunchStartsTheRun : Obligations.WellFormedLaunchStartsTheRun :=
  fun _ => step_of_launch_ok

/-- Settles O28: the named problem is absent exactly when the precondition holds. -/
theorem refusedLaunchChangesNothing : Obligations.RefusedLaunchChangesNothing := by
  intro s hreq hbad
  refine ⟨by rw [step_of_launch hreq, takeLaunch_of_problem hbad], ?_⟩
  exact Option.ne_none_iff_exists'.1 fun hnone => hbad (launchProblem_eq_none.1 hnone)

/-- From the invariant, a well-formed launch that waits in `IDLE` leaves a block about to execute the
first instruction. -/
theorem step_of_launch_first {s : State} {p : Fin NREG} (hinv : RunInv s)
    (hreq : s.request = some .launch) (hidle : s.status = .idle) (hw : WellFormedLaunch s)
    (hp : s.ip = some p) : ∃ t i, step s = .next t ∧ AboutToExecute t p 0 i ∧
      (s.prog[0]?).map Slot.instr = some i := by
  obtain ⟨-, hx⟩ := (runInv_idle hidle).1 hinv
  obtain ⟨i, habout, -⟩ := aboutToExecute_first (s := { s with status := .running, request := none })
    rfl rfl hp (hx p) (wellFormedLaunch_congr rfl rfl rfl hw)
  have ⟨_, _, _, _, hi⟩ := habout
  exact ⟨_, i, step_of_launch_ok hreq hidle hw, habout, hi⟩

/-- Settles O29, by `step_of_launch_first`. -/
theorem firstInstructionIsAtAddressZero : Obligations.FirstInstructionIsAtAddressZero := by
  intro s hinv hreq hidle hw
  have ⟨_, ⟨p, hp⟩, _⟩ := hw
  obtain ⟨t, i, hstep, habout, hi⟩ := step_of_launch_first hinv hreq hidle hw hp
  exact ⟨t, p, i, hstep, habout, hi⟩

/-- A cycle leaves the block running, halts it or faults it. -/
theorem cycle_status {s t : State} (hrun : s.status = .running) (h : cycle s = .next t) :
    t.status = .running ∨ t.status = .halted ∨ t.status = .faulted := by
  obtain ⟨p, -, ⟨-, rfl⟩ | ⟨i, -, ⟨-, rfl⟩ | ⟨c, v, -, -, -, -, rfl⟩⟩⟩ := cycle_cases hrun h
  · exact .inr (.inr rfl)
  · exact .inr (.inr rfl)
  · rw [advance_status, State.setX_status, hrun]
    split
    · exact .inr (.inl rfl)
    · exact .inl rfl

/-- Settles O30: the four things that a step can do, each with the status it leaves. -/
theorem lifeOfARun : Obligations.LifeOfARun := by
  intro s t h
  obtain ⟨hreq, rfl⟩ | ⟨hreq, rfl⟩ | ⟨-, -, rfl⟩ | ⟨hreq, hrun, hcycle⟩ := step_cases h
  · exact .inl ⟨hreq, rfl⟩
  · obtain ⟨hidle, -, e⟩ | ⟨-, e⟩ := takeLaunch_cases s
    · exact .inr (.inr (.inl ⟨hidle, hreq, by rw [e]⟩))
    · exact .inr (.inl (by rw [e]))
  · exact .inr (.inl rfl)
  · obtain hstay | hend := cycle_status hrun hcycle
    · exact .inr (.inl (hstay.trans hrun.symm))
    · exact .inr (.inr (.inr ⟨hrun, hreq, hend⟩))

/-- Settles O31: every other move asks for `IDLE`. -/
theorem hostCanOnlyResetAfterLaunch : Obligations.HostCanOnlyResetAfterLaunch := by
  refine ⟨fun _ => rfl, fun m s t hidle h => ?_⟩
  obtain ⟨hm, -⟩ | ⟨hs, -⟩ := hostMove_cases h
  · exact hm
  · exact absurd hs hidle

/-- Settles O32: in `HALTED` the snapshot is `State.values`. -/
theorem snapshotIsReadInHaltedOnly : Obligations.SnapshotIsReadInHaltedOnly :=
  fun s => ⟨fun h => ⟨s.values, State.snapshot_of_halted h, s.values_getElem⟩, fun h => if_neg h⟩

end Sys2Proof.Machine
end

section
/-! SUPPORT. The invariant of the life of one run, over steps, host moves and reachable states
(70_reset_and_hazards.md section 1, 60_exceptions.md section 2). -/

namespace Sys2Proof.Machine

open Safety

/-- Settles O40: `State.reset` is idle with no cause and six zeros. -/
theorem invariantHoldsAtReset : Obligations.InvariantHoldsAtReset :=
  (runInv_idle rfl).2 ⟨rfl, reset_x⟩

/-- Every instruction that a well-formed launch can fetch is well formed. -/
theorem wellFormed_of_fetch {s : State} {a : Int} {i : Instr} (hw : WellFormedLaunch s)
    (hf : fetch s a = some i) : WellFormed i := by
  obtain ⟨-, -, -, -, hwf⟩ := hw
  obtain ⟨-, -, c, hc, rfl⟩ := fetch_eq_some hf
  exact hwf c hc

/-- The start of a run meets the invariant: the pointer is 0 and the program is not empty. -/
theorem runInv_of_launch {s : State} (hinv : RunInv s) (hidle : s.status = .idle)
    (hw : WellFormedLaunch s) : RunInv { s with status := .running, request := none } := by
  obtain ⟨hcause, hx⟩ := (runInv_idle hidle).1 hinv
  have ⟨_, ⟨p, hp⟩, hlen, _⟩ := hw
  have h0 : (s.x p).toInt = 0 := by rw [hx p]; rfl
  have hlt : (s.x p).toInt < s.plen := by omega
  exact (runInv_running rfl).2 ⟨hcause, wellFormedLaunch_congr rfl rfl rfl hw, p, hp, hlt⟩

/-- A cycle keeps the invariant: an instruction of a well-formed launch does not raise REG_INDEX, and the
halting test looks at the pointer that the cycle leaves. -/
theorem runInv_of_cycle {s t : State} (hinv : RunInv s) (hrun : s.status = .running)
    (hreq : s.request = none) (h : cycle s = .next t) : RunInv t := by
  obtain ⟨hcause, hw, q, hq, hlt⟩ := (runInv_running hrun).1 hinv
  obtain ⟨p, hp, hcases⟩ := cycle_cases hrun h
  obtain rfl : q = p := Option.some.inj (hq.symm.trans hp)
  obtain ⟨hf, rfl⟩ | ⟨i, hf, ⟨hbad, -⟩ | ⟨c, v, -, -, -, -, rfl⟩⟩ := hcases
  · have hneg : (s.x q).toInt < 0 := (fetch_eq_none.1 hf).resolve_right (by omega)
    exact (runInv_faulted rfl).2 ⟨rfl, wellFormedLaunch_congr rfl rfl rfl hw, q, hp, hneg⟩
  · rw [regsOk_of_wf (wellFormed_of_fetch hw hf)] at hbad
    cases hbad
  · have hafter := afterCycle_advance_setX (aboutToExecute_of_fetch hrun hreq hp hf) c v
    have hcause' : (advance q (s.setX c v)).cause = .none := by
      rw [advance_cause, State.setX_cause, hcause]
    have hw' : WellFormedLaunch (advance q (s.setX c v)) :=
      wellFormedLaunch_congr hafter.prog (by simp) (by simp) hw
    rcases lt_or_ge ((advance q (s.setX c v)).x q).toInt s.plen with hbelow | hpast
    · exact (runInv_running (hafter.running hbelow)).2
        ⟨hcause', hw', q, hafter.ip, hafter.plen ▸ hbelow⟩
    · exact (runInv_halted (hafter.halted hpast)).2 ⟨hcause', hw', q, hafter.ip, hafter.plen ▸ hpast⟩

/-- Settles O41: a step resets, takes or drops a launch, changes nothing, or runs a cycle. -/
theorem stepKeepsTheInvariant : Obligations.StepKeepsTheInvariant := by
  intro s t hinv h
  obtain ⟨-, rfl⟩ | ⟨-, rfl⟩ | ⟨-, -, rfl⟩ | ⟨hreq, hrun, hcycle⟩ := step_cases h
  · exact invariantHoldsAtReset
  · obtain ⟨hidle, hw, e⟩ | ⟨-, e⟩ := takeLaunch_cases s
    · rw [e]
      exact runInv_of_launch hinv hidle hw
    · rw [e]
      exact runInv_request none hinv
  · exact hinv
  · exact runInv_of_cycle hinv hrun hreq hcycle

/-- In `IDLE` the invariant looks at the cause and the registers alone. -/
theorem runInv_of_idle {s t : State} (hinv : RunInv s) (hs : s.status = .idle) (ht : t.status = .idle)
    (hcause : t.cause = s.cause) (hx : ∀ k, t.x k = s.x k) : RunInv t := by
  obtain ⟨hc, h0⟩ := (runInv_idle hs).1 hinv
  exact (runInv_idle ht).2 ⟨hcause.trans hc, fun k => (hx k).trans (h0 k)⟩

/-- Settles O42: a request is not looked at by the invariant, and in `IDLE` neither `IPSEL` nor the program
is. -/
theorem hostMovesKeepTheInvariant : Obligations.HostMovesKeepTheInvariant := by
  intro m s t hinv h
  obtain ⟨-, rfl⟩ | ⟨hidle, -, ⟨v, -, -, -, -, rfl⟩ | ⟨prog, -, rfl⟩ | ⟨-, rfl⟩⟩ := hostMove_cases h
  · exact runInv_request _ hinv
  · exact runInv_of_idle hinv hidle hidle rfl fun _ => rfl
  · exact runInv_of_idle hinv hidle hidle rfl fun _ => rfl
  · exact runInv_request _ hinv

/-- Every reachable state meets the invariant. -/
theorem runInv_of_reachable {s : State} (h : Reachable s) : RunInv s := by
  induction h with
  | reset => exact invariantHoldsAtReset
  | step _ hstep ih => exact stepKeepsTheInvariant _ _ ih hstep
  | host m _ hmove ih => exact hostMovesKeepTheInvariant m _ _ ih hmove

/-- The invariant knows no cause but NONE and FETCH_RANGE. -/
theorem cause_ne_regIndex_of_runInv {s : State} (hinv : RunInv s) : s.cause ≠ .regIndex := by
  have hcause : s.cause = .none ∨ s.cause = .fetchRange := by
    cases hs : s.status with
    | idle => exact .inl ((runInv_idle hs).1 hinv).1
    | running => exact .inl ((runInv_running hs).1 hinv).1
    | halted => exact .inl ((runInv_halted hs).1 hinv).1
    | faulted => exact .inr ((runInv_faulted hs).1 hinv).1
  rcases hcause with h | h
  · simp [h]
  · simp [h]

/-- Settles O43: the invariant, read at each status. -/
theorem reachableFaultsAreNegativePointersOnly :
    Obligations.ReachableFaultsAreNegativePointersOnly := by
  intro s h
  have hinv := runInv_of_reachable h
  refine ⟨cause_ne_regIndex_of_runInv hinv, fun hs => ?_, fun hs => ?_, fun hs => ?_⟩
  · obtain ⟨hcause, -, hpointer⟩ := (runInv_faulted hs).1 hinv
    exact ⟨hcause, hpointer⟩
  · obtain ⟨hcause, -, hpointer⟩ := (runInv_halted hs).1 hinv
    exact ⟨hcause, hpointer⟩
  · obtain ⟨hcause, -, hpointer⟩ := (runInv_running hs).1 hinv
    exact ⟨hcause, hpointer⟩

/-- The cycle of a well-formed launch answers a next state. -/
theorem cycle_next_of_wellFormedLaunch {s : State} (hw : WellFormedLaunch s) :
    ∃ t, cycle s = .next t := by
  have ⟨_, ⟨p, hp⟩, _⟩ := hw
  cases hf : fetch s (s.x p).toInt with
  | none => exact ⟨_, cycle_of_no_fetch hp hf⟩
  | some i =>
    obtain ⟨c, v, -, hexec⟩ := exec_of_wf s (wellFormed_of_fetch hw hf)
    exact ⟨_, by rw [cycle_of_fetch hp hf, hexec, mapNext]⟩

/-- Settles O44: a refusal could only come from a cycle, and the invariant makes that of a well-formed
launch. -/
theorem reachableStatesAlwaysStep : Obligations.ReachableStatesAlwaysStep := by
  intro s h
  cases hreq : s.request with
  | some r =>
    cases r with
    | reset => exact ⟨_, step_of_reset hreq⟩
    | launch => exact ⟨_, step_of_launch hreq⟩
  | none =>
    by_cases hrun : s.status = .running
    · obtain ⟨-, hw, -⟩ := (runInv_running hrun).1 (runInv_of_reachable h)
      rw [step_of_running hrun hreq]
      exact cycle_next_of_wellFormedLaunch hw
    · exact ⟨s, step_of_not_running hrun hreq⟩

end Sys2Proof.Machine
end

section
/-! SUPPORT. Two states that no instruction can tell apart run alike: the congruence of the cycle, and its
uses for the form of the program (20_memory.md R41) and for what a program cannot read
(44_processor_cycle.md R156). -/

namespace Sys2Proof.Machine

open Safety

theorem mapNext_mapNext {σ τ υ : Type} (g : τ → υ) (f : σ → τ) (o : Host.Outcome σ Fault Refusal) :
    mapNext g (mapNext f o) = mapNext (fun t => g (f t)) o := by
  cases o <;> rfl

theorem mapNext_id {σ : Type} (o : Host.Outcome σ Fault Refusal) : mapNext (fun t => t) o = o := by
  cases o <;> rfl

/-- Operand values depend on the registers alone. -/
theorem fieldValue_congr {s s' : State} (hx : ∀ k, s'.x k = s.x k) (r : Role) (v : Int) :
    fieldValue s' r v = fieldValue s r v := by
  cases r with
  | reg => rw [fieldValue, fieldValue, funext hx]
  | lit => rfl
  | ignored => rfl

theorem result_congr {s s' : State} (hx : ∀ k, s'.x k = s.x k) (i : Instr) :
    result i s' = result i s := by
  rw [result, result, fieldValue_congr hx, fieldValue_congr hx]

section

variable {τ : Type} {f g : State → τ} {s s' : State}

/-- Execution from two states with equal registers, seen through `f` and `g`, which agree on a register
write and on REG_INDEX. -/
theorem mapNext_exec_congr (hx : ∀ k, s'.x k = s.x k)
    (hset : ∀ c v, f (s.setX c v) = g (s'.setX c v))
    (hraise : f (raise .regIndex s) = g (raise .regIndex s')) (i : Instr) :
    mapNext f (exec i s) = mapNext g (exec i s') := by
  rw [exec_eq_writeDest, exec_eq_writeDest, result_congr hx]
  unfold writeDest
  split
  · split
    · exact congrArg Host.Outcome.next (hset _ _)
    · rfl
  · exact congrArg Host.Outcome.next hraise
  · exact congrArg Host.Outcome.next hraise

/-- The same of a whole cycle, for two states with the same pointer register and fetches. -/
theorem mapNext_cycle_congr (hip : s'.ip = s.ip) (hfetch : ∀ a, fetch s' a = fetch s a)
    (hx : ∀ k, s'.x k = s.x k)
    (hset : ∀ p c v, f (finish p (s.setX c v)) = g (finish p (s'.setX c v)))
    (hraise : ∀ c, f (raise c s) = g (raise c s')) :
    mapNext f (cycle s) = mapNext g (cycle s') := by
  cases hp : s.ip with
  | none => rw [cycle_of_no_ip hp, cycle_of_no_ip (hip.trans hp)]; rfl
  | some p =>
    have hsame : fetch s' (s'.x p).toInt = fetch s (s.x p).toInt := by rw [hfetch, hx]
    cases hf : fetch s (s.x p).toInt with
    | none =>
      rw [cycle_of_no_fetch hp hf, cycle_of_no_fetch (hip.trans hp) (hsame.trans hf)]
      exact congrArg Host.Outcome.next (hraise _)
    | some i =>
      rw [cycle_of_fetch hp hf, cycle_of_fetch (hip.trans hp) (hsame.trans hf), mapNext_mapNext,
        mapNext_mapNext]
      exact mapNext_exec_congr hx (hset p) (by rw [finish_raise, finish_raise, hraise]) i

end

/-- The end of a cycle commutes with a change of the state that leaves registers, `PLEN` and the fact of a
fault alone. -/
theorem finish_comm {F : State → State} (hplen : ∀ t, (F t).plen = t.plen)
    (hx : ∀ t k, (F t).x k = t.x k) (hstatus : ∀ t, (F t).status = t.status)
    (hset : ∀ t c v, F (t.setX c v) = (F t).setX c v)
    (hhalt : ∀ t, F { t with status := .halted } = { F t with status := .halted })
    (p : Fin NREG) (t : State) : F (finish p t) = finish p (F t) := by
  have hinc : F (increment p t) = increment p (F t) := by
    rw [increment, increment, hset, hx]
  have htest (u : State) : F (haltTest p u) = haltTest p (F u) := by
    simp only [haltTest, apply_ite F, hhalt, hplen, hx]
  simp only [finish, advance, apply_ite F, htest, hinc, hstatus]

@[simp] theorem asTuples_plen (s : State) : (asTuples s).plen = s.plen := by
  simp [asTuples, State.plen]

@[simp] theorem fetch_asTuples (s : State) (a : Int) : fetch (asTuples s) a = fetch s a := by
  have hinstr : Slot.instr ∘ (fun c : Slot => Slot.tuple c.instr) = Slot.instr := rfl
  simp [fetch, asTuples, Option.map_map, hinstr]

theorem asTuples_finish (p : Fin NREG) (t : State) :
    asTuples (finish p t) = finish p (asTuples t) :=
  finish_comm asTuples_plen (fun _ _ => rfl) (fun _ => rfl) (fun _ _ _ => rfl) (fun _ => rfl) p t

/-- A cycle of the tuple form is the cycle, put into the tuple form. -/
theorem cycle_asTuples (s : State) : cycle (asTuples s) = mapNext asTuples (cycle s) := by
  rw [mapNext_cycle_congr (s := s) (s' := asTuples s) (g := fun t => t) rfl
    (fetch_asTuples s) (fun _ => rfl) (fun p _ _ => asTuples_finish p _) (fun _ => rfl), mapNext_id]

/-- The checks of a launch look at the instructions, not at the form of the slots. -/
theorem wellFormedLaunch_asTuples {s : State} : WellFormedLaunch (asTuples s) ↔ WellFormedLaunch s := by
  have hprog : (∀ c ∈ (asTuples s).prog, WellFormed c.instr) ↔ ∀ c ∈ s.prog, WellFormed c.instr :=
    List.forall_mem_map
  unfold WellFormedLaunch
  rw [hprog, asTuples_plen]
  rfl

theorem takeLaunch_asTuples (s : State) : takeLaunch (asTuples s) = asTuples (takeLaunch s) := by
  obtain ⟨hidle, hw, e⟩ | ⟨hbad, e⟩ := takeLaunch_cases s
  · rw [e, takeLaunch_of_ok (s := asTuples s) hidle (wellFormedLaunch_asTuples.2 hw)]
    rfl
  · rw [e, takeLaunch_of_problem (s := asTuples s) fun h =>
      hbad ⟨h.1, wellFormedLaunch_asTuples.1 h.2⟩]
    rfl

/-- Settles O39: reset forgets the program, a launch checks the instructions, and a cycle fetches them. -/
theorem wordAndTupleProgramsRunAlike : Obligations.WordAndTupleProgramsRunAlike := by
  intro s
  cases hreq : s.request with
  | some r =>
    cases r with
    | reset =>
      rw [step_of_reset hreq, step_of_reset (s := asTuples s) hreq]
      rfl
    | launch =>
      rw [step_of_launch hreq, step_of_launch (s := asTuples s) hreq, takeLaunch_asTuples]
      rfl
  | none =>
    by_cases hrun : s.status = .running
    · rw [step_of_running hrun hreq, step_of_running (s := asTuples s) hrun hreq, cycle_asTuples]
    · rw [step_of_not_running hrun hreq, step_of_not_running (s := asTuples s) hrun hreq]
      rfl

theorem programView_finish (p : Fin NREG) (t : State) :
    programView (finish p t) = finish p (programView t) :=
  finish_comm (F := programView) (fun _ => rfl) (fun _ _ => rfl) (fun _ => rfl) (fun _ _ _ => rfl)
    (fun _ => rfl) p t

/-- A cycle depends on what a program can read, as far as a program can read it. -/
theorem mapNext_programView_cycle (s : State) :
    mapNext programView (cycle s) = mapNext programView (cycle (programView s)) :=
  mapNext_cycle_congr rfl (fun _ => rfl) (fun _ => rfl)
    (fun p c v => by rw [programView_finish, programView_finish]; rfl) (fun _ => rfl)

/-- Settles O34: the two states have one `programView`. -/
theorem programCannotReadTheCause : Obligations.ProgramCannotReadTheCause := by
  intro s c b hrun hreq
  rw [step_of_running hrun hreq,
    step_of_running (s := { s with cause := c, ipselSet := b }) hrun hreq,
    mapNext_programView_cycle, mapNext_programView_cycle s]
  rfl

end Sys2Proof.Machine
end

section
/-! SUPPORT. The implementation with a fetch-address latch (44_processor_cycle.md R157). -/

namespace Sys2Proof.Machine

open Safety

/-- The state beside a latch that holds the pointer register's value. -/
def latchOf (p : Fin NREG) (t : State) : Latched := { ip := t.x p, core := t }

/-- Copying the latch back is the end of a cycle. -/
theorem latchBack_eq (p : Fin NREG) (t : State) : latchBack p t = latchOf p (advance p t) := by
  have hip : (latchBack p t).ip = (advance p t).x p := (advance_x_same t p).symm
  have hcore : (latchBack p t).core = advance p t := by
    simp only [latchBack, advance, haltTest, increment, State.x_setX_same]
  rw [latchOf, ← hip, ← hcore]

/-- What the latched cycle makes of the state after the execute phase: a fault leaves the latch alone. -/
theorem latched_finish {s t : State} {i : Instr} {p : Fin NREG} (hrun : s.status = .running)
    (h : exec i s = .next t) :
    (if t.status = .faulted then { ip := s.x p, core := t } else latchBack p t) =
      latchOf p (finish p t) := by
  obtain ⟨c, v, -, rfl⟩ | rfl := exec_next_cases h
  · have hne : (s.setX c v).status ≠ .faulted := by
      rw [State.setX_status, hrun]
      decide
    rw [if_neg hne, finish_of_ne hne, latchBack_eq]
  · rw [if_pos (raise_status s _), finish_raise]
    rfl

/-- Settles O45: the latch holds the pointer, so loading it into the register changes nothing, and both
cycles fetch and execute the same. -/
theorem latchedImplementationIsTheSameMachine :
    Obligations.LatchedImplementationIsTheSameMachine := by
  intro s p hrun hp
  unfold latchedCycle
  simp only [hp, State.setX_self]
  cases hf : fetch s (s.x p).toInt with
  | none => rw [cycle_of_no_fetch hp hf]; rfl
  | some i =>
    rw [cycle_of_fetch hp hf]
    dsimp only
    cases hexec : exec i s with
    | next t => exact congrArg Host.Outcome.next (latched_finish hrun hexec)
    | fault r => rfl
    | refused r => rfl

end Sys2Proof.Machine
end

section
/-! SUPPORT. The text form (30_encoding.md section 5) and the hand-over of an accepted text
(70_reset_and_hazards.md R192). -/

namespace Sys2Proof.Machine

open Safety

/-- Settles O46: the parse of a text is that of its first line and of the lines after it. -/
theorem acceptedTextHasOneInstructionALine : Obligations.AcceptedTextHasOneInstructionALine := by
  intro text d prog h
  obtain ⟨first, rest, hsplit, hdir, hlines⟩ := parseText_cases h
  obtain ⟨hd, c, hfields, hdigit⟩ := directiveLine_cases hdir
  obtain ⟨hlength, hline⟩ := instrLines_cases hlines
  rw [hsplit]
  refine ⟨⟨first, c, rfl, hdir, hfields, hdigit⟩, hd, ?_, hline⟩
  rw [List.length_cons, hlength]

/-- The block just reset, after the host has handed over a program and asserted `launch`. -/
def handedOver (d : Nat) (prog : List Instr) : State :=
  { State.reset with
    ipsel := BitVec.ofInt 3 d
    ipselSet := true
    prog := prog.map Slot.tuple
    request := some .launch }

/-- The moves of the loader are open to the host after a reset. -/
theorem hostMoves_handedOver {d : Nat} (prog : List Instr) (hd : d ≤ 5) :
    hostMoves [.setIpsel d, .load (prog.map Slot.tuple), .request .launch] State.reset =
      some (handedOver d prog) := by
  rw [hostMoves, hostMove_setIpsel rfl rfl rfl (by omega) (by omega)]
  rfl

theorem loaderMoves_of_parseText {text : List Char} {d : Nat} {prog : List Instr}
    (h : parseText text = .ok (d, prog)) :
    loaderMoves text = .ok [.setIpsel d, .load (prog.map Slot.tuple), .request .launch] := by
  simp only [loaderMoves, h]

/-- The hand-over of a well-formed, non-empty program is a well-formed launch. -/
theorem wellFormedLaunch_handedOver {p : Fin NREG} {prog : List Instr} (hne : prog ≠ [])
    (hmax : prog.length ≤ PLEN_MAX) (hwf : ∀ i ∈ prog, WellFormed i) :
    WellFormedLaunch (handedOver p.val prog) := by
  have hplen : (handedOver p.val prog).plen = prog.length := List.length_map _
  refine ⟨rfl, ⟨p, ip_of_ipsel_eq_ofInt rfl⟩, ?_, ?_, List.forall_mem_map.2 hwf⟩
  · rw [hplen]
    exact List.length_pos_iff.2 hne
  · rw [hplen]
    exact hmax

/-- Settles O47: the loader's moves lead to a well-formed launch that waits in `IDLE` with zero registers,
whose step is that of `step_of_launch_first`. -/
theorem acceptedWellFormedTextIsLaunched : Obligations.AcceptedWellFormedTextIsLaunched := by
  intro text d prog h hne hmax hwf
  obtain ⟨first, rest, -, hdir, -⟩ := parseText_cases h
  obtain ⟨hd, -⟩ := directiveLine_cases hdir
  obtain ⟨p, rfl⟩ : ∃ p : Fin NREG, p.val = d := ⟨⟨d, by simp only [NREG]; omega⟩, rfl⟩
  have hinv : RunInv (handedOver p.val prog) := (runInv_idle rfl).2 ⟨rfl, reset_x⟩
  obtain ⟨t, i, hstep, habout, hi⟩ := step_of_launch_first hinv rfl rfl
    (wellFormedLaunch_handedOver hne hmax hwf) (ip_of_ipsel_eq_ofInt rfl)
  refine ⟨_, _, t, loaderMoves_of_parseText h, hostMoves_handedOver prog hd, hstep, p, i, rfl,
    habout, ?_⟩
  have hinstr : Slot.instr ∘ Slot.tuple = id := rfl
  rwa [handedOver, List.getElem?_map, Option.map_map, hinstr, Option.map_id] at hi

end Sys2Proof.Machine
end
